-- ==== Sys2Proof/Word.lean ====
section
/-! DEFINITION. The machine's word types (spec/00_scope.md rules R6, R9, R10): a word is 32 bits, a byte 8,
a block 64 bytes or, seen by the transform engine, sixteen words. Every value is unsigned (rule R10). -/

namespace Sys2Proof

/-- "a 32-bit unsigned integer" (rule R6). `+` on it is addition modulo 2^32 (rule R11). -/
abbrev Word := BitVec 32

/-- An 8-bit byte (rule R13). -/
abbrev Byte := BitVec 8

/-- A 64-byte chunk of input, or a padding block (rules R6, R16). -/
abbrev Block := Vector Byte 64

/-- The sixteen message words X[0..15] of one block (rule R100). -/
abbrev MsgWords := Vector Word 16

/-- Four 32-bit words in the order A, B, C, D: the type of H, of DIGEST_H and of the finalize copy HF
(spec/10_state.md rules R21, R25, R30). -/
structure Hash where
  a : Word
  b : Word
  c : Word
  d : Word
deriving DecidableEq, Repr

end Sys2Proof
end

