-- ==== Sys2Proof/Syntax.lean ====
section
/-! DEFINITION. The instructions: one constructor per row of spec/opcode_table.json, in the table's order
(spec/30_encoding.md rules R70, R73, R80, R85). Three formats: CMD, the command word of a host write to CMD; BUS, one host
register access; ROUND, one round of the transform engine. -/

namespace Sys2Proof

inductive Instr where
  /-- NOP (rule R140). -/
  | nop
  /-- INIT (rule R142). -/
  | init
  /-- INGEST_BYTE, operand BYTE = w[7:0] (rules R74, R148). -/
  | ingestByte (byte : Byte)
  /-- INGEST_WORD, operand KM1 = w[1:0], the number of bytes minus 1 (rules R74, R150). -/
  | ingestWord (km1 : BitVec 2)
  /-- FINALIZE (rule R155). -/
  | finalize
  /-- ILLEGAL: any command word no other CMD row selects (rules R72, R75, R201). -/
  | illegal (w : Word)
  /-- RD_CMD, a read of offset 0x00 (rule R176). -/
  | rdCmd
  /-- WR_CMD, a write of the command word w to offset 0x00 (rule R176). -/
  | wrCmd (w : Word)
  /-- RD_DATA, a read of offset 0x04 (rule R177). -/
  | rdData
  /-- WR_DATA, a write of v to offset 0x04 (rule R177). -/
  | wrData (v : Word)
  /-- RD_STATUS, a read of offset 0x08 (rule R179). -/
  | rdStatus
  /-- RD_DIGEST, a read of DIGESTk at offset 0x10 + 4k (rule R178). -/
  | rdDigest (k : BitVec 2)
  /-- RD_COUNT_LO, a read of offset 0x20 (rule R180). -/
  | rdCountLo
  /-- RD_COUNT_HI, a read of offset 0x24 (rule R180). -/
  | rdCountHi
  /-- RD_RESERVED, a read of a reserved offset 4·off (rule R181). -/
  | rdReserved (off : BitVec 6)
  /-- WR_IGNORED, a write of v to a read-only or reserved offset 4·off (rule R182). -/
  | wrIgnored (off : BitVec 6) (v : Word)
  /-- FF, round j of pass 1 (rule R110). -/
  | ff (j : BitVec 4)
  /-- GG, round j of pass 2 (rule R111). -/
  | gg (j : BitVec 4)
  /-- HH, round j of pass 3 (rule R112). -/
  | hh (j : BitVec 4)
  /-- II, round j of pass 4 (rule R113). -/
  | ii (j : BitVec 4)
deriving DecidableEq, Repr

end Sys2Proof
end

