-- ==== Sys2Proof/Decode.lean ====
section
/-! DEFINITION. The decoders of the three formats (spec/30_encoding.md rules R72, R80, R85), each total, and the encoder.
A CMD word no row selects is not turned away: it IS the instruction ILLEGAL (rule R72). A host access that is not admitted
never reaches a decoder (rule R81): Machine/Ops.lean turns it away by name. -/

namespace Sys2Proof

/-- OPC, bits [31:28] of a command word (rule R71). -/
def opcOf (w : Word) : BitVec 4 := w.extractLsb' 28 4

/-- The case analysis of rule R72: which of its lines the command word w selects. The decoder and WR_CMD both read it. -/
def caseCmd {α : Type} (w : Word) (nop init : α) (ingestByte : Byte → α) (ingestWord : BitVec 2 → α)
    (finalize illegal : α) : α :=
  if opcOf w = 0x0 ∧ w.extractLsb' 0 28 = 0 then nop
  else if opcOf w = 0x1 ∧ w.extractLsb' 0 28 = 0 then init
  else if opcOf w = 0x2 ∧ w.extractLsb' 8 20 = 0 then ingestByte (w.extractLsb' 0 8)
  else if opcOf w = 0x3 ∧ w.extractLsb' 2 26 = 0 then ingestWord (w.extractLsb' 0 2)
  else if opcOf w = 0x4 ∧ w.extractLsb' 0 28 = 0 then finalize
  else illegal

/-- The CMD format (rule R72). -/
def decodeCmd (w : Word) : Instr :=
  caseCmd w .nop .init .ingestByte .ingestWord .finalize (.illegal w)

/-- The BUS format (rule R80): the descriptor {W = bit 6, OFF = bits [5:0]}, and the word a write carries. A read carries
no word, and its decoding does not look at v. -/
def decodeBus (desc : BitVec 7) (v : Word) : Instr :=
  let off : BitVec 6 := desc.extractLsb' 0 6
  if desc.getLsbD 6 then
    if off = 0 then .wrCmd v
    else if off = 1 then .wrData v
    else .wrIgnored off v
  else
    if off = 0 then .rdCmd
    else if off = 1 then .rdData
    else if off = 2 then .rdStatus
    else if off.extractLsb' 2 4 = 1 then .rdDigest (off.extractLsb' 0 2)
    else if off = 8 then .rdCountLo
    else if off = 9 then .rdCountHi
    else .rdReserved off

/-- The ROUND format (rule R85): RND[5:4] selects the pass, RND[3:0] is the position j in it. -/
def decodeRound (rnd : BitVec 6) : Instr :=
  let j : BitVec 4 := rnd.extractLsb' 0 4
  if rnd.extractLsb' 4 2 = 0 then .ff j
  else if rnd.extractLsb' 4 2 = 1 then .gg j
  else if rnd.extractLsb' 4 2 = 2 then .hh j
  else .ii j

/-- What carries an operation (rule R70): a command word, an access descriptor with the word it writes, or the engine's
round counter. -/
inductive Code where
  | cmd (w : Word)
  | bus (desc : BitVec 7) (data : Word)
  | round (rnd : BitVec 6)
deriving DecidableEq, Repr

/-- The decoder of all three formats. -/
def decode : Code → Instr
  | .cmd w => decodeCmd w
  | .bus desc v => decodeBus desc v
  | .round rnd => decodeRound rnd

/-- The access descriptor {W, OFF} (rule R70). -/
def descriptor (isWrite : Bool) (off : BitVec 6) : BitVec 7 := BitVec.ofBool isWrite ++ off

/-- The encoder, from the tables of rules R73 (match values and operand places), R80 and R85. A read's absent data word is
written as zeros. -/
def encode : Instr → Code
  | .nop => .cmd 0x00000000
  | .init => .cmd 0x10000000
  | .ingestByte b => .cmd (0x20000000 ||| b.setWidth 32)
  | .ingestWord km1 => .cmd (0x30000000 ||| km1.setWidth 32)
  | .finalize => .cmd 0x40000000
  | .illegal w => .cmd w
  | .rdCmd => .bus (descriptor false 0) 0
  | .wrCmd w => .bus (descriptor true 0) w
  | .rdData => .bus (descriptor false 1) 0
  | .wrData v => .bus (descriptor true 1) v
  | .rdStatus => .bus (descriptor false 2) 0
  | .rdDigest k => .bus (descriptor false (0b0001#4 ++ k)) 0
  | .rdCountLo => .bus (descriptor false 8) 0
  | .rdCountHi => .bus (descriptor false 9) 0
  | .rdReserved off => .bus (descriptor false off) 0
  | .wrIgnored off v => .bus (descriptor true off) v
  | .ff j => .round (0b00#2 ++ j)
  | .gg j => .round (0b01#2 ++ j)
  | .hh j => .round (0b10#2 ++ j)
  | .ii j => .round (0b11#2 ++ j)

/-- The code that a table word of `nbits` bits stands for: 32 bits are a CMD word, 7 bits or the byte that holds them a BUS
descriptor (followed, in 40 bits, by the word a write carries; zeros where the table gives it no bits), 6 bits a ROUND
index. Eight bits cannot say ROUND, since the table's BUS and ROUND rows then share their words (notes/assumptions/8.md). -/
def tableCode (nbits w : Nat) : Option Code :=
  if 2 ^ nbits ≤ w then none
  else if nbits = 32 then some (.cmd (BitVec.ofNat 32 w))
  else if nbits = 7 ∨ nbits = 8 ∨ nbits = 40 then
    if w / 128 % 2 = 1 then none
    else some (.bus (BitVec.ofNat 7 w) (BitVec.ofNat 32 (w / 256)))
  else if nbits = 6 then some (.round (BitVec.ofNat 6 w))
  else none

/-- What the decoder gives for a table word (none where `tableCode` finds no code). -/
def decodeTableWord (nbits w : Nat) : Option Instr := (tableCode nbits w).map decode

end Sys2Proof
end

