-- ==== Sys2Proof/Config.lean ====
section
/-! DEFINITION. The parameters no rule fixes (spec/00_scope.md rule R8) and the free values the spec leaves
unspecified. Each is an uninterpreted constant: no proof can learn its value, so a claim about it holds whatever it is. -/

namespace Sys2Proof.Config

/-- `HOST_BE`: the level of the byte-order strap that the machine's first reset samples, true for a big-endian host
(rules R8, R27; notes/assumptions/1.md). One constant for every instance of a platform, which is the model's choice. -/
opaque hostBeStrap : Bool

/-- `MD5_BASE`: where the platform puts the register window (rule R8, decision D29; notes/assumptions/2.md). -/
opaque md5Base : BitVec 32

/-- `TRANSFORM_LATENCY`: cycles of one transform (rule R8). No rule reads it (R123, R250), so nothing in the model does
(notes/assumptions/3.md). -/
opaque transformLatency : Nat

/-- Free value: word number `n` among the words whose value the spec leaves unspecified, the transform engine's registers
and HF outside a transform (spec/10_state.md rules R29, R30; notes/assumptions/6.md). -/
opaque freeWord : Nat → Word

/-- Free value: byte number `n` among the bytes left unspecified, those of PB outside a FINALIZE (rule R30;
notes/assumptions/6.md). -/
opaque freeByte : Nat → Byte

end Sys2Proof.Config
end

