-- ==== Sys2Proof/Machine/State.lean ====
section
/-! DEFINITION. The state: everything spec/10_state.md rule R20 gives the CORE, the internal state of rules R29 and R30, and
what surrounds it, the host's accesses still to come and what the port answered. Plain data throughout. Reset is rule R38. -/

namespace Sys2Proof.Machine

/-- The two usage errors (spec/60_exceptions.md rules R200, R201). -/
inductive UsageError where
  /-- INGEST_AFTER_FINALIZE: INGEST_BYTE or INGEST_WORD while FINALIZED = 1. -/
  | ingestAfterFinalize
  /-- ILLEGAL_COMMAND: a CMD write of a word that decodes as ILLEGAL. -/
  | illegalCommand
deriving DecidableEq, Repr

/-- One `raise UsageError` of the run, kept in the model's history (rule R204). `latched` says that it was the first since
the last INIT or reset, the one ERR_CODE keeps (rule R203). -/
structure FaultEvent where
  error : UsageError
  latched : Bool
deriving DecidableEq, Repr

/-- Who drives the register port (spec/20_memory.md rule R63). -/
inductive Agent where
  /-- The one host agent of the instance. -/
  | host
  /-- Any second agent: outside the spec. -/
  | other
deriving DecidableEq, Repr

/-- The width of a host access (rule R56). -/
inductive Width where
  | byte
  | half
  | word
deriving DecidableEq, Repr

/-- A read, or a write with the word it carries. -/
inductive Direction where
  | read
  | write (v : Word)
deriving DecidableEq, Repr

/-- One access at the register port, at a byte offset from MD5_BASE (rule R51). -/
structure Access where
  agent : Agent
  width : Width
  offset : BitVec 8
  dir : Direction
deriving DecidableEq, Repr

/-- What the world outside does to the CORE, one after another. -/
inductive Stimulus where
  /-- A register access (rule R55). -/
  | access (a : Access)
  /-- Reset asserted and released between two accesses, with this strap level (rule R230). -/
  | reset (strap : Bool)
  /-- An access while reset is asserted (rule R230, S10). -/
  | accessInReset (a : Access)
  /-- A reset asserted while this access is being performed. For the command a CMD write carries this is rule R232, S9; for an
  access that carries no command the spec says nothing (notes/assumptions/12.md). -/
  | resetDuring (a : Access)
deriving DecidableEq, Repr

/-- A command in progress between two rounds of a transform (rules R29, R58, R232): what is left of it once the transform
is done. -/
inductive Activity where
  /-- No command is in progress: the next access is accepted. -/
  | idle
  /-- An ingestion's transform is running (rule R145); these bytes are still to be ingested after it. -/
  | ingesting (rest : List Byte)
  /-- A FINALIZE's transform is running (rule R155); `second` says that the length block still follows. -/
  | finalizing (second : Bool)
deriving DecidableEq, Repr

/-- The transform engine's registers (rule R29): a, b, c, d; the entry state A0, B0, C0, D0; the message words X[0..15]; the
round counter RND. -/
structure Engine where
  a : Word
  b : Word
  c : Word
  d : Word
  a0 : Word
  b0 : Word
  c0 : Word
  d0 : Word
  x : MsgWords
  rnd : BitVec 6
deriving DecidableEq, Repr

/-- The private copy a FINALIZE works on (rule R30): the padding block PB and the working hash HF. -/
structure FinalCopy where
  pb : Block
  hf : Hash
deriving DecidableEq, Repr

/-- A byte-addressed store as a list of (address, byte) pairs, addresses strictly rising, no entry holding the byte an
unlisted address reads as (Machine/Ops.lean says which). -/
abbrev Memory := List Host.Cell

/-- The machine. The first eight fields are the state of rule R20; `engine` and `fin` that of rules R29 and R30; `activity`
the command in progress of rule R232; the last four are the model's own. -/
@[ext]
structure State where
  /-- H[0..3], the running hash state (rule R21). -/
  h : Hash
  /-- BUF[0..63], the pending block (rule R22). -/
  buf : Memory
  /-- COUNT, bytes ingested modulo 2^64 (rule R24). -/
  count : BitVec 64
  /-- FINALIZED (rule R26). -/
  finalized : Bool
  /-- ERR_CODE (rule R35). -/
  errCode : BitVec 4
  /-- DIGEST_H[0..3] (rule R25). -/
  digestH : Hash
  /-- DATA (rule R28). -/
  data : Word
  /-- HOST_BE, true for 1 (rule R27). -/
  hostBe : Bool
  /-- The transform engine's registers (rule R29). -/
  engine : Engine
  /-- The finalize copies PB and HF (rule R30). -/
  fin : FinalCopy
  /-- The command in progress, if any (rule R232). -/
  activity : Activity
  /-- MODEL'S OWN: what the port answered to the last access, none for a write (rule R14, `RegRead`). -/
  response : Option Word
  /-- MODEL'S OWN: what the outside world will do, in its order (rule R55). -/
  pending : List Stimulus
  /-- MODEL'S OWN: the history of usage errors, oldest first (rule R204). -/
  faults : List FaultEvent
  /-- MODEL'S OWN: how many free values have been drawn (notes/assumptions/6.md). -/
  draws : Nat
deriving DecidableEq, Repr

/-- Reasons the machine stops with a fault: none. A usage error is recorded and the machine goes on (rule R203), no access
returns a bus error (decision D30), there is no trap (rule R206), and no state lacks a next step (spec/93 section 2). -/
inductive Fault where
deriving DecidableEq, Repr

/-- Reasons a run is refused, each one that spec/93_implementation_defined.md lists as "refuse". -/
inductive Refusal where
  /-- Raised by an arm of `exec` for an instruction without a meaning; safe. No arm does. -/
  | notModelled (mnemonic : String)
  /-- Raised by the port for an access 8 or 16 bits wide: it "has no meaning in this spec" (rule R56, S8); safe. -/
  | accessNotWordWide
  /-- Raised by the port for an offset with bits [1:0] ≠ 0 (rule R56, S8); safe. -/
  | accessUnaligned
  /-- Raised by the port for a second agent on the instance (rule R63, U4, S15); safe. -/
  | secondAgent
  /-- Raised by the port for an access while reset is asserted (rule R230, S10); safe. -/
  | accessWhileReset
  /-- Raised by the port for a reset during a command: "the end of that run" (rule R232, U6, S9); safe. DESIGN CHOICE: raised
  under this name also for a reset during an access that carries no command (notes/assumptions/12.md); safe. -/
  | resetDuringCommand
deriving DecidableEq, Repr

/-- The initial hash state (rule R21), the IV of spec/95_test_vectors.md. -/
def initialHash : Hash := ⟨0x67452301, 0xEFCDAB89, 0x98BADCFE, 0x10325476⟩

/-- The engine's registers at reset: the spec leaves them unspecified, the model names zero (notes/assumptions/5.md). -/
def Engine.zero : Engine :=
  ⟨0, 0, 0, 0, 0, 0, 0, 0, Vector.replicate 16 0, 0⟩

/-- The finalize copies at reset: unspecified in the spec, zero here (notes/assumptions/5.md). -/
def FinalCopy.zero : FinalCopy := ⟨Vector.replicate 64 0, ⟨0, 0, 0, 0⟩⟩

/-- The machine right after its reset (rule R38), with nothing pending: H, COUNT, FINALIZED, ERR_CODE and DATA as the rule
says, HOST_BE the strap, and zero where the rule says unspecified (notes/assumptions/4.md, 5.md). DESIGN CHOICE (notes/assumptions/1.md, 16.md): the strap is
one constant, so two instances of a platform, each right after its first reset, have equal HOST_BE; rule R218 makes HOST_BE per
instance and does not relate the straps. Unsafe for a claim that relates them. -/
def State.reset : State where
  h := initialHash
  buf := []
  count := 0
  finalized := false
  errCode := 0
  digestH := ⟨0, 0, 0, 0⟩
  data := 0x00000000
  hostBe := Config.hostBeStrap
  engine := Engine.zero
  fin := FinalCopy.zero
  activity := .idle
  response := none
  pending := []
  faults := []
  draws := 0

end Sys2Proof.Machine
end

