-- ==== Sys2Proof/Machine/Ops.lean ====
section
/-! DEFINITION. The operations the meanings share: byte order and rotation, the store behind BUF, the named updates of State,
raising a usage error, reset, and the admission of a host access. -/

namespace Sys2Proof.Machine

/-! ### Words and bytes (spec/00_scope.md rules R12, R13) -/

/-- `rotl(x, s)`, the 32-bit circular left rotate, amounts taken modulo 32 (rule R12). -/
def rotl (x : Word) (s : Nat) : Word :=
  if s % 32 = 0 then x else (x <<< (s % 32)) ||| (x >>> (32 - s % 32))

/-- `LE32(b0, b1, b2, b3)` (rule R13). -/
def le32 (b0 b1 b2 b3 : Byte) : Word :=
  b0.setWidth 32 ||| (b1.setWidth 32 <<< 8) ||| (b2.setWidth 32 <<< 16) ||| (b3.setWidth 32 <<< 24)

/-- Byte m of a word, `w[8m+7 : 8m]`. -/
def byteOf (w : Word) (m : Nat) : Byte := w.extractLsb' (8 * m) 8

/-- `bytesLE32(w)` (rule R13). -/
def bytesLE32 (w : Word) : List Byte := [byteOf w 0, byteOf w 1, byteOf w 2, byteOf w 3]

/-- Byte m of a 64-bit value. -/
def byteOf64 (v : BitVec 64) (m : Nat) : Byte := v.extractLsb' (8 * m) 8

/-- `bytesLE64(v)`: eight bytes, least significant first (rule R13). -/
def bytesLE64 (v : BitVec 64) : List Byte :=
  [byteOf64 v 0, byteOf64 v 1, byteOf64 v 2, byteOf64 v 3, byteOf64 v 4, byteOf64 v 5, byteOf64 v 6, byteOf64 v 7]

/-- `swap32` by the source's formula (spec/42_endianness_and_readout.md rule R170). -/
def swap32 (x : Word) : Word := (rotl x 8 &&& 0x00FF00FF) ||| (rotl x 24 &&& 0xFF00FF00)

/-- The word view of a block, `X[j] = LE32(blk[4j], …, blk[4j+3])` (spec/40_transform.md rule R101). -/
def words (blk : Block) : MsgWords :=
  Vector.ofFn fun j : Fin 16 => le32 blk[4 * j.val] blk[4 * j.val + 1] blk[4 * j.val + 2] blk[4 * j.val + 3]

/-- Word k of a four-word state: A, B, C, D for k = 0, 1, 2, 3 (spec/10_state.md rule R21). -/
def hashWord (h : Hash) (k : BitVec 2) : Word :=
  if k = 0 then h.a else if k = 1 then h.b else if k = 2 then h.c else h.d

/-! ### The store behind BUF -/

/-- What an unlisted address reads as (DESIGN CHOICE, notes/assumptions/4.md; no rule reads such a byte, rule R23). -/
def Memory.blank : Byte := 0x00

/-- How many bytes the address space has: BUF[0..63] (spec/20_memory.md rule R51). -/
def Memory.size : Nat := 64

/-- The byte at an address. -/
def Memory.read : Memory → Nat → Byte
  | [], _ => Memory.blank
  | (k, v) :: m, a => if a = k then v else Memory.read m a

/-- The entry that listing v at a takes: none when v is what an unlisted address reads as. -/
def Memory.entry (a : Nat) (v : Byte) (m : Memory) : Memory :=
  if v = Memory.blank then m else (a, v) :: m

/-- Storing a byte, in canonical form. -/
def Memory.write : Memory → Nat → Byte → Memory
  | [], a, v => Memory.entry a v []
  | (k, w) :: m, a, v =>
    if a < k then Memory.entry a v ((k, w) :: m)
    else if a = k then Memory.entry a v m
    else (k, w) :: Memory.write m a v

/-- The canonical form, for the addresses from `lo` on: strictly rising, inside the address space, no blank entry. -/
def Memory.wfFrom : Nat → Memory → Bool
  | _, [] => true
  | lo, (k, v) :: m => decide (lo ≤ k) && decide (k < Memory.size) && v != Memory.blank && Memory.wfFrom (k + 1) m

/-- The canonical form. -/
def Memory.wf (m : Memory) : Bool := Memory.wfFrom 0 m

/-! ### Reading the state -/

/-- FILL = COUNT[5:0] (rule R23). -/
def State.fill (s : State) : BitVec 6 := s.count.extractLsb' 0 6

/-- BUF[i]. -/
def State.bufByte (s : State) (i : Nat) : Byte := s.buf.read i

/-- BUF[0..63]. -/
def State.bufBlock (s : State) : Block := Vector.ofFn fun i : Fin 64 => s.bufByte i.val

/-! ### Updating the state -/

/-- BUF[FILL] <- x; COUNT <- COUNT + 1 (spec/41_accumulator.md rule R145). -/
def State.putByte (s : State) (x : Byte) : State :=
  { s with buf := s.buf.write s.fill.toNat x, count := s.count + 1 }

/-- H <- h. -/
def State.setH (s : State) (h : Hash) : State := { s with h := h }

/-- DATA <- v. -/
def State.setData (s : State) (v : Word) : State := { s with data := v }

/-- DIGEST_H <- h; FINALIZED <- 1. -/
def State.setDigest (s : State) (h : Hash) : State := { s with digestH := h, finalized := true }

/-- The port answers a read with v. No read has another effect (spec/20_memory.md rule R59). -/
def State.respond (s : State) (v : Word) : State := { s with response := some v }

/-- The port completes a write: nothing is answered. -/
def State.acknowledge (s : State) : State := { s with response := none }

/-- The transform engine's registers <- e. -/
def State.setEngine (s : State) (e : Engine) : State := { s with engine := e }

/-- PB and HF <- c. -/
def State.setFin (s : State) (c : FinalCopy) : State := { s with fin := c }

/-- The command in progress <- a. -/
def State.setActivity (s : State) (a : Activity) : State := { s with activity := a }

/-- The stimuli still to come <- q. -/
def State.setPending (s : State) (q : List Stimulus) : State := { s with pending := q }

/-- INIT's effect: a new, empty computation, no flag and no error; BUF, DIGEST_H and DATA stay (rule R142). -/
def State.startNew (s : State) : State :=
  { s with h := initialHash, count := 0, finalized := false, errCode := 0 }

/-! ### Values the spec leaves unspecified -/

/-- The engine's registers with free values, from number n on (25 words). -/
def Engine.free (n : Nat) : Engine where
  a := Config.freeWord n
  b := Config.freeWord (n + 1)
  c := Config.freeWord (n + 2)
  d := Config.freeWord (n + 3)
  a0 := Config.freeWord (n + 4)
  b0 := Config.freeWord (n + 5)
  c0 := Config.freeWord (n + 6)
  d0 := Config.freeWord (n + 7)
  x := Vector.ofFn fun i : Fin 16 => Config.freeWord (n + 8 + i.val)
  rnd := (Config.freeWord (n + 24)).setWidth 6

/-- PB and HF with free values, from number n on (64 bytes, four words). -/
def FinalCopy.free (n : Nat) : FinalCopy where
  pb := Vector.ofFn fun i : Fin 64 => Config.freeByte (n + i.val)
  hf := ⟨Config.freeWord n, Config.freeWord (n + 1), Config.freeWord (n + 2), Config.freeWord (n + 3)⟩

/-- The numbers one `releaseEngine` uses up; `releaseInternals` uses as many again. -/
def drawStride : Nat := 64

/-- A transform has ended: "Their values between transforms are unspecified and unobservable" (rule R29,
notes/assumptions/6.md). DESIGN CHOICE: every instance of a platform (rule R218) counts its own draws from the same free values,
so two instances draw equal values at equal counts, which the spec does not say; unsafe for a claim that relates the internals
of two instances. -/
def State.releaseEngine (s : State) : State :=
  { s with engine := Engine.free s.draws, draws := s.draws + drawStride }

/-- A FINALIZE has ended: its private copy and the engine hold no value a rule reads (rules R29, R30). The free
values are those `releaseEngine` speaks of, with the same choice between instances. -/
def State.releaseInternals (s : State) : State :=
  { s with engine := Engine.free s.draws, fin := FinalCopy.free (s.draws + drawStride),
           draws := s.draws + 2 * drawStride }

/-! ### Usage errors (spec/60_exceptions.md) -/

/-- The code an error puts in ERR_CODE (rule R35). -/
def UsageError.code : UsageError → BitVec 4
  | .ingestAfterFinalize => 1
  | .illegalCommand => 2

/-- `raise UsageError(code)` (rule R203): ERR_CODE keeps the first error since the last INIT or reset, and nothing else the
spec gives the machine changes. The event goes to the history, with whether ERR_CODE took it (rule R204). There is no trap to
enter and none to return from (rules R206, R207). -/
def State.raiseUsageError (s : State) (e : UsageError) : State :=
  { s with errCode := if s.errCode = 0 then e.code else s.errCode,
           faults := s.faults ++ [⟨e, s.errCode == 0⟩] }

/-! ### Reset and the port -/

/-- A reset of the running machine (spec/70_reset_and_hazards.md rule R230): every element as after the first reset, HOST_BE
the strap's present level. What is still to come, the history and the count of free values go on (notes/assumptions/12.md). -/
def State.resetBy (s : State) (strap : Bool) : State :=
  { State.reset with hostBe := strap, pending := s.pending, faults := s.faults, draws := s.draws }

/-- OFF = offset[7:2] (spec/30_encoding.md rule R80). -/
def Access.wordOffset (a : Access) : BitVec 6 := a.offset.extractLsb' 2 6

/-- The BUS code of an admitted access (rules R70, R80). -/
def Access.code (a : Access) : Code :=
  match a.dir with
  | .read => .bus (descriptor false a.wordOffset) 0
  | .write v => .bus (descriptor true a.wordOffset) v

/-- Which accesses are admitted: those of the one host, 32 bits wide, at an offset with bits [1:0] = 0 (spec/20_memory.md
rules R56, R63). The others are turned away by name before any decoding (rule R81). -/
def Access.refusal (a : Access) : Option Refusal :=
  if a.agent = .other then some .secondAgent
  else if a.width ≠ .word then some .accessNotWordWide
  else if a.offset.extractLsb' 0 2 ≠ 0 then some .accessUnaligned
  else none

end Sys2Proof.Machine
end

