-- ==== Sys2Proof/Machine/Operands.lean ====
section
/-! DEFINITION. The endianness adapter and the operand forms (spec/42_endianness_and_readout.md rules R172, R173, R178;
spec/30_encoding.md rule R74): the bytes an ingestion command takes, the word a register read answers. -/

namespace Sys2Proof.Machine

/-- `adapt_in(DATA) = HOST_BE ? swap32(DATA) : DATA` (rule R172). -/
def adaptIn (hostBe : Bool) (data : Word) : Word := if hostBe then swap32 data else data

/-- `adapt_out(w) = HOST_BE ? swap32(w) : w` (rule R173). -/
def adaptOut (hostBe : Bool) (w : Word) : Word := if hostBe then swap32 w else w

/-- `k = KM1 + 1`, an unsigned count in 1..4 (rule R74). -/
def byteCount (km1 : BitVec 2) : Nat := km1.toNat + 1

/-- The bytes INGEST_WORD takes: the first k of `adapt_in(DATA)[7:0], [15:8], [23:16], [31:24]` (rules R150, R172). -/
def State.ingestOperand (s : State) (km1 : BitVec 2) : List Byte :=
  (bytesLE32 (adaptIn s.hostBe s.data)).take (byteCount km1)

/-- What DIGESTk reads as (rules R36, R178). -/
def State.digestRead (s : State) (k : BitVec 2) : Word :=
  if s.finalized then adaptOut s.hostBe (hashWord s.digestH k) else 0x00000000

/-- COUNT[31:0] and COUNT[63:32] (rule R180). -/
def State.countLo (s : State) : Word := s.count.extractLsb' 0 32
@[inherit_doc State.countLo]
def State.countHi (s : State) : Word := s.count.extractLsb' 32 32

end Sys2Proof.Machine
end

