-- ==== Sys2Proof/Machine/Round.lean ====
section
/-! DEFINITION. The transform engine (spec/40_transform.md): the four nonlinear functions, the schedule, the meanings of the
ROUND instructions FF, GG, HH and II, and the whole transform. Its shift amounts, constant table and register roles are the
passages K2 to K4 of spec/93_implementation_defined.md, which the spec itself marks as general knowledge. -/

namespace Sys2Proof.Machine

/-! ### Nonlinear functions (rules R110 to R113) -/

/-- `F(b, c, d) = (b∧c)∨(¬b∧d)` (rule R110). -/
def funF (b c d : Word) : Word := (b &&& c) ||| (~~~b &&& d)

/-- `G(b, c, d) = (b∧d)∨(c∧¬d)` (rule R111). -/
def funG (b c d : Word) : Word := (b &&& d) ||| (c &&& ~~~d)

/-- `Hf(b, c, d) = b⊕c⊕d` (rule R112). -/
def funH (b c d : Word) : Word := b ^^^ c ^^^ d

/-- `I(b, c, d) = c⊕(b∨¬d)` (rule R113). -/
def funI (b c d : Word) : Word := c ^^^ (b ||| ~~~d)

/-! ### Schedule (rules R105 to R107) -/

/-- The pass of a round index, RND[5:4] = p − 1 (rule R85). -/
def passOf (rnd : BitVec 6) : BitVec 2 := rnd.extractLsb' 4 2

/-- The position of a round in its pass, RND[3:0] (rule R85). -/
def posOf (rnd : BitVec 6) : BitVec 4 := rnd.extractLsb' 0 4

/-- `g(i)`: j, (1 + 5j) mod 16, (5 + 3j) mod 16, (7j) mod 16 by pass (rule R105); four bits, so modulo 16. -/
def msgIndex (rnd : BitVec 6) : BitVec 4 :=
  let j := posOf rnd
  if passOf rnd = 0 then j
  else if passOf rnd = 1 then 1 + 5 * j
  else if passOf rnd = 2 then 5 + 3 * j
  else 7 * j

/-- The shift amounts of rule R106, four to a pass. -/
def shiftTable : List Nat :=
  [7, 12, 17, 22] ++ [5, 9, 14, 20] ++ [4, 11, 16, 23] ++ [6, 10, 15, 21]

/-- `S(i) = SH[p(i)][i mod 4]` (rule R106). -/
def shiftAmount (rnd : BitVec 6) : Nat :=
  shiftTable.getD (4 * (passOf rnd).toNat + (rnd.extractLsb' 0 2).toNat) 0

/-- T[0..15] (rule R107). -/
def constants1 : List Word :=
  [0xD76AA478, 0xE8C7B756, 0x242070DB, 0xC1BDCEEE, 0xF57C0FAF, 0x4787C62A, 0xA8304613, 0xFD469501,
   0x698098D8, 0x8B44F7AF, 0xFFFF5BB1, 0x895CD7BE, 0x6B901122, 0xFD987193, 0xA679438E, 0x49B40821]

/-- T[16..31] (rule R107). -/
def constants2 : List Word :=
  [0xF61E2562, 0xC040B340, 0x265E5A51, 0xE9B6C7AA, 0xD62F105D, 0x02441453, 0xD8A1E681, 0xE7D3FBC8,
   0x21E1CDE6, 0xC33707D6, 0xF4D50D87, 0x455A14ED, 0xA9E3E905, 0xFCEFA3F8, 0x676F02D9, 0x8D2A4C8A]

/-- T[32..47] (rule R107). -/
def constants3 : List Word :=
  [0xFFFA3942, 0x8771F681, 0x6D9D6122, 0xFDE5380C, 0xA4BEEA44, 0x4BDECFA9, 0xF6BB4B60, 0xBEBFBC70,
   0x289B7EC6, 0xEAA127FA, 0xD4EF3085, 0x04881D05, 0xD9D4D039, 0xE6DB99E5, 0x1FA27CF8, 0xC4AC5665]

/-- T[48..63] (rule R107). -/
def constants4 : List Word :=
  [0xF4292244, 0x432AFF97, 0xAB9423A7, 0xFC93A039, 0x655B59C3, 0x8F0CCC92, 0xFFEFF47D, 0x85845DD1,
   0x6FA87E4F, 0xFE2CE6E0, 0xA3014314, 0x4E0811A1, 0xF7537E82, 0xBD3AF235, 0x2AD7D2BB, 0xEB86D391]

/-- The ROM of 64 words (rule R107). -/
def constantTable : List Word := constants1 ++ constants2 ++ constants3 ++ constants4

/-- `T[i]` (rule R107). -/
def additiveConstant (rnd : BitVec 6) : Word := constantTable.getD rnd.toNat 0

/-! ### One round -/

/-- `X[k]`. -/
def Engine.word (e : Engine) (k : BitVec 4) : Word := e.x.get (Fin.cast rfl k.toFin)

/-- The template of rules R110 to R113 with nonlinear function f, and the register roles of rule R115:
`b_new <- b + rotl(a + f(b,c,d) + X[g(i)] + T[i], S(i))`, `(a, b, c, d) <- (d, b_new, b, c)`. -/
def Engine.roundWith (f : Word → Word → Word → Word) (rnd : BitVec 6) (e : Engine) : Engine :=
  let v := rotl (e.a + f e.b e.c e.d + e.word (msgIndex rnd) + additiveConstant rnd) (shiftAmount rnd)
  { e with a := e.d, b := e.b + v, c := e.b, d := e.c }

/-- FF, round j of pass 1, on the engine's registers (rule R110). RND is the sequencer's to advance (rule R120,
notes/assumptions/13.md). -/
def execFf (j : BitVec 4) (s : State) : Host.Outcome State Fault Refusal :=
  .next (s.setEngine (s.engine.roundWith funF (0b00#2 ++ j)))

/-- GG, round j of pass 2 (rule R111). -/
def execGg (j : BitVec 4) (s : State) : Host.Outcome State Fault Refusal :=
  .next (s.setEngine (s.engine.roundWith funG (0b01#2 ++ j)))

/-- HH, round j of pass 3 (rule R112). -/
def execHh (j : BitVec 4) (s : State) : Host.Outcome State Fault Refusal :=
  .next (s.setEngine (s.engine.roundWith funH (0b10#2 ++ j)))

/-- II, round j of pass 4 (rule R113). -/
def execIi (j : BitVec 4) (s : State) : Host.Outcome State Fault Refusal :=
  .next (s.setEngine (s.engine.roundWith funI (0b11#2 ++ j)))

/-! ### The whole transform (rules R120, R121) -/

/-- The engine at the start of a transform: entry state and working registers are h, the message words X, RND = 0. -/
def Engine.load (h : Hash) (x : MsgWords) : Engine where
  a := h.a
  b := h.b
  c := h.c
  d := h.d
  a0 := h.a
  b0 := h.b
  c0 := h.c
  d0 := h.d
  x := x
  rnd := 0

/-- The final addition, `(a+A0, b+B0, c+C0, d+D0)`, each word separately (rule R121). -/
def Engine.result (e : Engine) : Hash := ⟨e.a + e.a0, e.b + e.b0, e.c + e.c0, e.d + e.d0⟩

/-- The nonlinear function of a round: `case RND[5:4] of 0: F | 1: G | 2: Hf | 3: I` (rule R120). -/
def passFunction (rnd : BitVec 6) : Word → Word → Word → Word :=
  if passOf rnd = 0 then funF
  else if passOf rnd = 1 then funG
  else if passOf rnd = 2 then funH
  else funI

/-- The round with index i of rule R120's loop. -/
def Engine.round (e : Engine) (i : Nat) : Engine :=
  e.roundWith (passFunction (BitVec.ofNat 6 i)) (BitVec.ofNat 6 i)

/-- `transform(h, X)`: rounds 0 to 63 in this order, once each, then the final addition (rule R120). Irreducible
so that no comparison of two states runs the 64 rounds; the kernel sees through it all the same, so a proof rewrites with the
field lemmas of Laws/ rather than compare two such states by rfl. -/
@[irreducible] def transform (h : Hash) (x : MsgWords) : Hash :=
  ((List.range 64).foldl Engine.round (Engine.load h x)).result

end Sys2Proof.Machine
end

