-- ==== Sys2Proof/Machine/Command.lean ====
section
/-! DEFINITION. The commands (spec/41_accumulator.md; spec/60_exceptions.md rule R201): NOP, INIT, INGEST_BYTE, INGEST_WORD,
FINALIZE and ILLEGAL, each one atomic step (spec/70_reset_and_hazards.md rule R245, notes/assumptions/7.md). -/

namespace Sys2Proof.Machine

/-- NOP: `skip` (rule R140). -/
def execNop (s : State) : Host.Outcome State Fault Refusal := .next s

/-- INIT (rule R142). -/
def execInit (s : State) : Host.Outcome State Fault Refusal := .next s.startNew

/-- The byte-ingest primitive `ingest_byte(x)` (rule R145): the byte goes to BUF[FILL], COUNT counts it, and the byte that
fills BUF has H advanced by one transform of BUF. -/
def State.ingestByte (s : State) (x : Byte) : State :=
  if s.fill = 63 then
    (s.putByte x).releaseEngine.setH (transform s.h (words (s.putByte x).bufBlock))
  else s.putByte x

/-- `ingest_byte` of each byte of a sequence, in order (rules R150, R152). -/
def State.ingestBytes (s : State) (bs : List Byte) : State := bs.foldl State.ingestByte s

/-- What INGEST_BYTE and INGEST_WORD share: rejection while FINALIZED = 1 (rules R163, R200), else the bytes. -/
def State.ingestOrReject (s : State) (bs : List Byte) : State :=
  if s.finalized then s.raiseUsageError .ingestAfterFinalize else s.ingestBytes bs

/-- INGEST_BYTE (rule R148). -/
def execIngestByte (byte : Byte) (s : State) : Host.Outcome State Fault Refusal :=
  .next (s.ingestOrReject [byte])

/-- INGEST_WORD (rule R150): the first k bytes of DATA in host memory order. -/
def execIngestWord (km1 : BitVec 2) (s : State) : Host.Outcome State Fault Refusal :=
  .next (s.ingestOrReject (s.ingestOperand km1))

/-! ### Padding and length encoder (rules R155 to R160) -/

/-- `bitlen = (COUNT * 8) mod 2^64` (rules R155, R160). -/
def State.bitLength (s : State) : BitVec 64 := s.count * 8

/-- Whether the 0x80 byte and the eight length bytes fit in one block: L <= 55 (rule R157; spec/90_conflicts.md C1). -/
def State.onePadBlock (s : State) : Bool := decide (s.fill.toNat ≤ 55)

/-- PB before the length is placed: `BUF[0 .. L-1] ++ [0x80] ++ 0^(63 - L)` (rules R155, R158). -/
def State.padBlock (s : State) : Block :=
  Vector.ofFn fun i : Fin 64 =>
    if i.val < s.fill.toNat then s.bufByte i.val else if i.val = s.fill.toNat then 0x80 else 0x00

/-- `PB[56 .. 63] <- bytesLE64(bitlen)` (rule R155). -/
def withLength (pb : Block) (bitlen : BitVec 64) : Block :=
  Vector.ofFn fun i : Fin 64 => if i.val < 56 then pb[i.val] else byteOf64 bitlen (i.val - 56)

/-- The first (or only) padding block. -/
def State.firstPadBlock (s : State) : Block :=
  if s.onePadBlock then withLength s.padBlock s.bitLength else s.padBlock

/-- The second padding block of the two-block case, `0^56 ++ bytesLE64(bitlen)` (rule R158). -/
def State.lengthBlock (s : State) : Block := withLength (Vector.replicate 64 0) s.bitLength

/-- The hash FINALIZE computes on its private copy: one transform when L <= 55, two when L >= 56 (rules R155, R159). -/
def State.finalHash (s : State) : Hash :=
  let hf := transform s.h (words s.firstPadBlock)
  if s.onePadBlock then hf else transform hf (words s.lengthBlock)

/-- FINALIZE (rule R155): DIGEST_H <- HF, FINALIZED <- 1; H, BUF and COUNT are not changed (rule R161). -/
def execFinalize (s : State) : Host.Outcome State Fault Refusal :=
  .next (s.releaseInternals.setDigest s.finalHash)

/-- ILLEGAL: ILLEGAL_COMMAND is raised whatever the state, with no other effect (rules R75, R201, R205). The word itself is
not recorded. -/
def execIllegal (_w : Word) (s : State) : Host.Outcome State Fault Refusal :=
  .next (s.raiseUsageError .illegalCommand)

end Sys2Proof.Machine
end

