-- ==== Sys2Proof/Machine/Flags.lean ====
section
/-! DEFINITION. The flags (spec/10_state.md rules R34, R37): the CORE has no condition codes, only the fields of STATUS. -/

namespace Sys2Proof.Machine

/-- ERR: 1 if ERR_CODE ≠ 0, else 0 (rule R34). -/
def State.errFlag (s : State) : Bool := s.errCode != 0

/-- A flag as a word, 0 or 1. -/
def flagWord (b : Bool) : Word := (BitVec.ofBool b).setWidth 32

/-- `STATUS = FINALIZED | (ERR << 1) | (HOST_BE << 2) | (ERR_CODE << 4) | (COUNT[5:0] << 8)` (rules R34, R179). -/
def State.status (s : State) : Word :=
  flagWord s.finalized ||| (flagWord s.errFlag <<< 1) ||| (flagWord s.hostBe <<< 2)
    ||| (s.errCode.setWidth 32 <<< 4) ||| (s.fill.setWidth 32 <<< 8)

end Sys2Proof.Machine
end

