-- ==== Sys2Proof/Machine/Bus.lean ====
section
/-! DEFINITION. The register accesses (spec/42_endianness_and_readout.md rules R176 to R182). A read answers a value and
changes nothing else (rule R59); a write answers nothing; none raises an error, but for WR_CMD through its command. -/

namespace Sys2Proof.Machine

/-- RD_CMD: CMD holds no value (rule R176). -/
def execRdCmd (s : State) : Host.Outcome State Fault Refusal := .next (s.respond 0x00000000)

/-- WR_CMD: decode w as rule R72 and perform the command it selects (rule R176). -/
def execWrCmd (w : Word) (s : State) : Host.Outcome State Fault Refusal :=
  caseCmd w (execNop s.acknowledge) (execInit s.acknowledge) (fun byte => execIngestByte byte s.acknowledge)
    (fun km1 => execIngestWord km1 s.acknowledge) (execFinalize s.acknowledge) (execIllegal w s.acknowledge)

/-- RD_DATA (rule R177). -/
def execRdData (s : State) : Host.Outcome State Fault Refusal := .next (s.respond s.data)

/-- WR_DATA: stored as written, unswapped (rule R177). -/
def execWrData (v : Word) (s : State) : Host.Outcome State Fault Refusal := .next (s.acknowledge.setData v)

/-- RD_STATUS (rule R179). -/
def execRdStatus (s : State) : Host.Outcome State Fault Refusal := .next (s.respond s.status)

/-- RD_DIGEST (rule R178). -/
def execRdDigest (k : BitVec 2) (s : State) : Host.Outcome State Fault Refusal := .next (s.respond (s.digestRead k))

/-- RD_COUNT_LO (rule R180). -/
def execRdCountLo (s : State) : Host.Outcome State Fault Refusal := .next (s.respond s.countLo)

/-- RD_COUNT_HI (rule R180). -/
def execRdCountHi (s : State) : Host.Outcome State Fault Refusal := .next (s.respond s.countHi)

/-- RD_RESERVED (rule R181). -/
def execRdReserved (_off : BitVec 6) (s : State) : Host.Outcome State Fault Refusal := .next (s.respond 0x00000000)

/-- WR_IGNORED: changes no state and raises no error (rule R182). -/
def execWrIgnored (_off : BitVec 6) (_v : Word) (s : State) : Host.Outcome State Fault Refusal := .next s.acknowledge

end Sys2Proof.Machine
end

