-- ==== Sys2Proof/Machine/Dispatch.lean ====
section
/-! DEFINITION. The meaning of every instruction: one arm per constructor. -/

namespace Sys2Proof.Machine

def exec (i : Instr) (s : State) : Host.Outcome State Fault Refusal :=
  match i with
  -- CMD format
  | .nop => Sys2Proof.Machine.execNop s
  | .init => Sys2Proof.Machine.execInit s
  | .ingestByte byte => Sys2Proof.Machine.execIngestByte byte s
  | .ingestWord km1 => Sys2Proof.Machine.execIngestWord km1 s
  | .finalize => Sys2Proof.Machine.execFinalize s
  | .illegal w => Sys2Proof.Machine.execIllegal w s
  -- BUS format
  | .rdCmd => Sys2Proof.Machine.execRdCmd s
  | .wrCmd w => Sys2Proof.Machine.execWrCmd w s
  | .rdData => Sys2Proof.Machine.execRdData s
  | .wrData v => Sys2Proof.Machine.execWrData v s
  | .rdStatus => Sys2Proof.Machine.execRdStatus s
  | .rdDigest k => Sys2Proof.Machine.execRdDigest k s
  | .rdCountLo => Sys2Proof.Machine.execRdCountLo s
  | .rdCountHi => Sys2Proof.Machine.execRdCountHi s
  | .rdReserved off => Sys2Proof.Machine.execRdReserved off s
  | .wrIgnored off v => Sys2Proof.Machine.execWrIgnored off v s
  -- ROUND format
  | .ff j => Sys2Proof.Machine.execFf j s
  | .gg j => Sys2Proof.Machine.execGg j s
  | .hh j => Sys2Proof.Machine.execHh j s
  | .ii j => Sys2Proof.Machine.execIi j s

end Sys2Proof.Machine
end

