-- ==== Sys2Proof/Machine/Sequencer.lean ====
section
/-! DEFINITION. Sequencing (spec/10_state.md rule R31). There is no program counter: what runs next is the next access of
the host or, inside a transform, the round that RND selects. This file says which, how a command in progress goes on round
by round, and how the fetch is set up for one instruction. The commands of Machine/Command.lean are the same computations
taken whole; that the two agree is stated in Certificates/Slice0/Obligations.lean. -/

namespace Sys2Proof.Machine

/-! ### A command in progress, round by round -/

/-- Ingest bytes up to the end, or up to the one that fills BUF: there the engine is loaded with H and BUF and the rest waits
for its transform (rules R122, R145). -/
def State.beginIngest : List Byte → State → State
  | [], s => s.setActivity .idle
  | b :: bs, s =>
    if s.fill = 63 then
      ((s.putByte b).setEngine (Engine.load s.h (words (s.putByte b).bufBlock))).setActivity (.ingesting bs)
    else State.beginIngest bs (s.putByte b)

/-- Start a FINALIZE: the private copy is taken and the engine loaded with it (rules R30, R155). -/
def State.beginFinalize (s : State) : State :=
  ((s.setFin ⟨s.firstPadBlock, s.h⟩).setEngine (Engine.load s.h (words s.firstPadBlock))).setActivity
    (.finalizing (!s.onePadBlock))

/-- The last round is done: the final addition (rule R121), its result to H or to HF (rule R122), and what is left of the
command. -/
def State.finishTransform (s : State) : State :=
  match s.activity with
  | .idle => s
  | .ingesting rest => State.beginIngest rest (s.releaseEngine.setH s.engine.result)
  | .finalizing true =>
    ((s.setFin ⟨s.lengthBlock, s.engine.result⟩).setEngine
      (Engine.load s.engine.result (words s.lengthBlock))).setActivity (.finalizing false)
  | .finalizing false => (s.releaseInternals.setDigest s.engine.result).setActivity .idle

/-- After each round: RND takes 0, 1, …, 63 in that order, once each (rule R31), and after 63 the transform ends. -/
def State.afterRound (s : State) : State :=
  if s.engine.rnd = 63 then s.finishTransform
  else s.setEngine { s.engine with rnd := s.engine.rnd + 1 }

/-! ### What happens next -/

/-- The machine's next move. -/
inductive Turn where
  /-- The host access at the port is this instruction, to be run in this state. -/
  | access (i : Instr) (s : State)
  /-- The engine runs the round that RND selects; `State.afterRound` follows. -/
  | round (i : Instr)
  /-- No instruction: the state becomes s. -/
  | become (s : State)
  /-- The run is refused. -/
  | refuse (r : Refusal)
deriving DecidableEq, Repr

/-- What the next stimulus asks for, in the state without it. DESIGN CHOICE (notes/assumptions/12.md): a reset during an access is
refused whichever access it is. Rule R232 and S9 say so of a command in progress; of a reset during an access that carries no
command, a register read or a write to another register than CMD, the spec says nothing. -/
def State.accept (s : State) : Stimulus → Turn
  | .access a =>
    match a.refusal with
    | some r => .refuse r
    | none => .access (decode a.code) s
  | .reset strap => .become (s.resetBy strap)
  | .accessInReset _ => .refuse .accessWhileReset
  | .resetDuring _ => .refuse .resetDuringCommand

/-- While a command is in progress the bus stalls the host and the engine runs (rule R55). Otherwise the next stimulus is
taken; with none to come the state is kept (rule R220). -/
def State.nextTurn (s : State) : Turn :=
  match s.activity with
  | .idle =>
    match s.pending with
    | [] => .become s
    | q :: rest => (s.setPending rest).accept q
  | .ingesting _ => .round (decode (.round s.engine.rnd))
  | .finalizing _ => .round (decode (.round s.engine.rnd))

/-! ### Placing one instruction -/

/-- The host access that a BUS code describes. -/
def busAccess (desc : BitVec 7) (v : Word) : Access where
  agent := .host
  width := .word
  offset := desc.extractLsb' 0 6 ++ 0b00#2
  dir := if desc.getLsbD 6 then .write v else .read

/-- A command in progress is what a round runs in; where there is none, an ingestion with nothing left to ingest. -/
def Activity.busy : Activity → Activity
  | .idle => .ingesting []
  | a => a

/-- Put a code where the machine takes its next instruction: a command word in a write to CMD, a descriptor as an access,
both ahead of what is pending; a round index in RND of a transform in progress (notes/assumptions/8.md). -/
def State.place (s : State) : Code → State
  | .cmd w => (s.setActivity .idle).setPending (.access (busAccess (descriptor true 0) w) :: s.pending)
  | .bus desc v => (s.setActivity .idle).setPending (.access (busAccess desc v) :: s.pending)
  | .round rnd => (s.setEngine { s.engine with rnd := rnd }).setActivity s.activity.busy

/-- `place` for a table word; a word that is no code leaves s as it is. -/
def State.placeTableWord (s : State) (nbits w : Nat) : State :=
  match tableCode nbits w with
  | some c => s.place c
  | none => s

end Sys2Proof.Machine
end

