-- ==== Sys2Proof/Machine/Step.lean ====
section
/-! DEFINITION. One step: the next access of the host, whole (spec/20_memory.md rule R55), or one round of a transform in
progress. -/

namespace Sys2Proof.Machine

/-- What a round's step adds around its meaning. -/
def thenAfterRound : Host.Outcome State Fault Refusal → Host.Outcome State Fault Refusal
  | .next s => .next s.afterRound
  | .fault r => .fault r
  | .refused r => .refused r

/-- One step of the machine. -/
def step (s : State) : Host.Outcome State Fault Refusal :=
  match s.nextTurn with
  | .access i t => exec i t
  | .round i => thenAfterRound (exec i s)
  | .become t => .next t
  | .refuse r => .refused r

/-- s with the instruction of a table word placed so that the very next step runs it (notes/assumptions/8.md, 9.md). -/
def State.withFetchWord (s : State) (nbits w : Nat) : State := s.placeTableWord nbits w

end Sys2Proof.Machine
end

