-- ==== Sys2Proof/Machine/Digest.lean ====
section
/-! DEFINITION. The digest of a whole byte sequence, as spec/41_accumulator.md rule R162 describes it, apart from any command:
the padded message, cut into blocks, each taken through the transform. -/

namespace Sys2Proof.Machine

/-- The first 64 bytes of a list as a block. -/
def blockOf (bs : List Byte) : Block := Vector.ofFn fun i : Fin 64 => bs.getD i.val 0x00

/-- `transform` applied to h and to each of the first n 64-byte blocks of a list, in order (rule R162). -/
def hashBlocks (h : Hash) : Nat → List Byte → Hash
  | 0, _ => h
  | n + 1, bs => hashBlocks (transform h (words (blockOf bs))) n (bs.drop 64)

/-- `m ++ [0x80] ++ 0^z ++ bytesLE64((8 × len(m)) mod 2^64)` (rule R162). -/
def paddedMessage (m : List Byte) (z : Nat) : List Byte :=
  m ++ [0x80] ++ List.replicate z 0x00 ++ bytesLE64 (BitVec.ofNat 64 (8 * m.length))

/-- "z is the least number ≥ 0 that makes the total length a multiple of 64" (rule R162). -/
def LeastPadding (m : List Byte) (z : Nat) : Prop :=
  64 ∣ (paddedMessage m z).length ∧ ∀ z', 64 ∣ (paddedMessage m z').length → z ≤ z'

/-- MD5 of m: every block of the padded message through the transform, from the initial state (rule R162). -/
def messageDigest (m : List Byte) (z : Nat) : Hash :=
  hashBlocks initialHash ((paddedMessage m z).length / 64) (paddedMessage m z)

/-- The 16 digest bytes of four words (spec/10_state.md rule R25). -/
def digestBytes (h : Hash) : List Byte := bytesLE32 h.a ++ bytesLE32 h.b ++ bytesLE32 h.c ++ bytesLE32 h.d

end Sys2Proof.Machine
end

