-- ==== Sys2Proof/Machine/HostSide.lean ====
section
/-! DEFINITION. The host's side of the port, outside the CORE: its native loads and stores (spec/42_endianness_and_readout.md
rule R171), the hex form of a digest (rules R190, R191), and the assembler lines and pseudo-instructions that write down a
host's accesses (spec/30_encoding.md rules R90 to R92). No step of the machine calls this file (notes/assumptions/17.md). -/

namespace Sys2Proof.Machine

/-! ### Host memory words -/

/-- `HostWord(b0, b1, b2, b3)`: what a native 32-bit load gives the host (rule R171). -/
def hostWord (hostBe : Bool) (b0 b1 b2 b3 : Byte) : Word :=
  if hostBe then swap32 (le32 b0 b1 b2 b3) else le32 b0 b1 b2 b3

/-- The bytes a native 32-bit store of v puts at p, p+1, p+2, p+3 (rule R171). -/
def storedBytes (hostBe : Bool) (v : Word) : List Byte := bytesLE32 (if hostBe then swap32 v else v)

/-! ### Hex -/

/-- `hexdig(n)`: '0'..'9', then 'a'..'f' (rule R190). -/
def hexDigit (n : BitVec 4) : Char := "0123456789abcdef".toList.getD n.toNat '0'

/-- `Hex(d)`, two digits a byte, the high one first (rule R190). -/
def hexChars (d : List Byte) : List Char :=
  d.flatMap fun b => [hexDigit (b.extractLsb' 4 4), hexDigit (b.extractLsb' 0 4)]

/-! ### Assembler -/

/-- `<reg>` of rule R90. -/
inductive Reg where
  | cmd
  | data
  | status
  | digest (k : BitVec 2)
  | countLo
  | countHi
  /-- `[<offset>]`. -/
  | raw (offset : BitVec 8)
deriving DecidableEq, Repr

/-- `offset(<reg>)` (spec/10_state.md rule R33). -/
def Reg.offset : Reg → BitVec 8
  | .cmd => 0x00
  | .data => 0x04
  | .status => 0x08
  | .digest k => 0x10 + 4 * k.setWidth 8
  | .countLo => 0x20
  | .countHi => 0x24
  | .raw offset => offset

/-- One line of program text (rule R90). -/
inductive AsmLine where
  | wr (reg : Reg) (imm32 : Word)
  | rd (reg : Reg)
  | nop
  | init
  /-- `INGEST.B <imm8>`. -/
  | ingestB (imm8 : Byte)
  /-- `INGEST.W <k>`, with k − 1 in 0..3. -/
  | ingestW (km1 : BitVec 2)
  | finalize
deriving DecidableEq, Repr

/-- The access of the one host, 32 bits wide. -/
def hostAccess (offset : BitVec 8) (dir : Direction) : Access := ⟨.host, .word, offset, dir⟩

/-- The access a line stands for (rule R90). -/
def AsmLine.access : AsmLine → Access
  | .wr reg imm32 => hostAccess reg.offset (.write imm32)
  | .rd reg => hostAccess reg.offset .read
  | .nop => hostAccess Reg.cmd.offset (.write 0x00000000)
  | .init => hostAccess Reg.cmd.offset (.write 0x10000000)
  | .ingestB imm8 => hostAccess Reg.cmd.offset (.write (0x20000000 ||| imm8.setWidth 32))
  | .ingestW km1 => hostAccess Reg.cmd.offset (.write (0x30000000 ||| km1.setWidth 32))
  | .finalize => hostAccess Reg.cmd.offset (.write 0x40000000)

/-- `PUSH.W b0, b1, b2, b3` (rule R91). -/
def pushW (hostBe : Bool) (b0 b1 b2 b3 : Byte) : List AsmLine :=
  [.wr .data (hostWord hostBe b0 b1 b2 b3), .ingestW 3]

/-- `INGEST s` (rule R91): whole words, then the one to three bytes left (`PUSH.T`). -/
def ingestLines (hostBe : Bool) : List Byte → List AsmLine
  | [] => []
  | [b0] => [.wr .data (hostWord hostBe b0 0 0 0), .ingestW 0]
  | [b0, b1] => [.wr .data (hostWord hostBe b0 b1 0 0), .ingestW 1]
  | [b0, b1, b2] => [.wr .data (hostWord hostBe b0 b1 b2 0), .ingestW 2]
  | b0 :: b1 :: b2 :: b3 :: s => pushW hostBe b0 b1 b2 b3 ++ ingestLines hostBe s

/-- `READ_DIGEST` (rule R91). -/
def readDigest : List AsmLine := [.rd (.digest 0), .rd (.digest 1), .rd (.digest 2), .rd (.digest 3)]

/-- The accesses of `PROCESS s` (rule R91). -/
def processLines (hostBe : Bool) (s : List Byte) : List AsmLine :=
  [.init] ++ ingestLines hostBe s ++ [.finalize] ++ readDigest

/-- The stimuli of some lines, in order (spec/20_memory.md rule R55). -/
def asStimuli (lines : List AsmLine) : List Stimulus := lines.map fun l => .access l.access

/-! ### Display -/

/-- `FF i`, `GG i`, `HH i`, `II i` for round index i (rule R92). -/
def displayRound (rnd : BitVec 6) : String :=
  (if passOf rnd = 0 then "FF " else if passOf rnd = 1 then "GG " else if passOf rnd = 2 then "HH " else "II ")
    ++ toString rnd.toNat

end Sys2Proof.Machine
end

