-- ==== Sys2Proof/Machine/Platform.lean ====
section
/-! DEFINITION. Several instances on one platform (spec/60_exceptions.md rules R217, R218): each has its own window base and
its own state; a host address reaches the instance whose 256-byte window holds it (notes/assumptions/2.md, 16.md). -/

namespace Sys2Proof.Machine

/-- One CORE and the base address of its window (rule R218). -/
structure CoreInstance where
  base : BitVec 32
  core : State
deriving DecidableEq, Repr

/-- The instances of a platform. "Instances have no identifiers of their own other than their base address". -/
abbrev Platform := List CoreInstance

/-- A platform of one CORE, at MD5_BASE. -/
def soleInstance (s : State) : Platform := [⟨Config.md5Base, s⟩]

/-- The byte offset of a host address in the window at `base`, none outside its 256 bytes (spec/10_state.md rule R33). -/
def windowOffset (base addr : BitVec 32) : Option (BitVec 8) :=
  if (addr - base).toNat < 256 then some ((addr - base).setWidth 8) else none

/-- An access comes to the port of one instance, behind what is pending there. -/
def CoreInstance.enqueue (i : CoreInstance) (a : Access) : CoreInstance :=
  { i with core := i.core.setPending (i.core.pending ++ [.access a]) }

/-- A host access at an address: the instance whose window holds it gets it, no other does. -/
def Platform.route (agent : Agent) (width : Width) (addr : BitVec 32) (dir : Direction) : Platform → Platform
  | [] => []
  | i :: p =>
    match windowOffset i.base addr with
    | some offset => i.enqueue ⟨agent, width, offset, dir⟩ :: p
    | none => i :: Platform.route agent width addr dir p

/-- Instance number k takes one step. -/
def Platform.stepAt : Nat → Platform → Host.Outcome Platform Fault Refusal
  | _, [] => .next []
  | 0, i :: p =>
    match step i.core with
    | .next s => .next (⟨i.base, s⟩ :: p)
    | .fault r => .fault r
    | .refused r => .refused r
  | k + 1, i :: p =>
    match Platform.stepAt k p with
    | .next q => .next (i :: q)
    | .fault r => .fault r
    | .refused r => .refused r

end Sys2Proof.Machine
end

