-- ==== Sys2Proof/Safety.lean ====
section
/-! DEFINITION. The terms claims are made in: the invariant, runs of instructions, what a run has ingested, and which runs are
free of usage errors. -/

namespace Sys2Proof

/-- Instructions that only answer a read (spec/42_endianness_and_readout.md section 2). -/
def Instr.isRead : Instr → Bool
  | .rdCmd => true
  | .rdData => true
  | .rdStatus => true
  | .rdDigest _ => true
  | .rdCountLo => true
  | .rdCountHi => true
  | .rdReserved _ => true
  | .nop => false
  | .init => false
  | .ingestByte _ => false
  | .ingestWord _ => false
  | .finalize => false
  | .illegal _ => false
  | .wrCmd _ => false
  | .wrData _ => false
  | .wrIgnored _ _ => false
  | .ff _ => false
  | .gg _ => false
  | .hh _ => false
  | .ii _ => false

/-- The command an instruction performs: a command itself, or the one the word of a WR_CMD selects (rule R176). -/
def Instr.command : Instr → Instr
  | .nop => .nop
  | .init => .init
  | .ingestByte b => .ingestByte b
  | .ingestWord km1 => .ingestWord km1
  | .finalize => .finalize
  | .illegal w => .illegal w
  | .rdCmd => .rdCmd
  | .wrCmd w => decodeCmd w
  | .rdData => .rdData
  | .wrData v => .wrData v
  | .rdStatus => .rdStatus
  | .rdDigest k => .rdDigest k
  | .rdCountLo => .rdCountLo
  | .rdCountHi => .rdCountHi
  | .rdReserved off => .rdReserved off
  | .wrIgnored off v => .wrIgnored off v
  | .ff j => .ff j
  | .gg j => .gg j
  | .hh j => .hh j
  | .ii j => .ii j

/-- Instructions that neither start a new digest (INIT) nor complete one (FINALIZE). -/
def Instr.continues (i : Instr) : Prop := i.command ≠ .init ∧ i.command ≠ .finalize

end Sys2Proof

namespace Sys2Proof.Machine

/-- "no usage error raised" (spec/60_exceptions.md rule R204): the history is empty. -/
def State.NoUsageError (s : State) : Prop := s.faults = []

/-- ERR_CODE is 0, or the code of an event of the history that ERR_CODE took (rules R35, R203). -/
def State.ErrCodeExplained (s : State) : Prop :=
  s.errCode = 0 ∨ ∃ ev ∈ s.faults, ev.latched = true ∧ s.errCode = ev.error.code

/-- The invariant of the machine: BUF's store is canonical, ERR_CODE is one of the three values ever produced (rule R35), and
a nonzero ERR_CODE has its event in the history. -/
structure State.Inv (s : State) : Prop where
  bufCanonical : s.buf.wf = true
  errCodeLegal : s.errCode = 0 ∨ s.errCode = 1 ∨ s.errCode = 2
  errCodeExplained : s.ErrCodeExplained

/-- Run a list of instructions in order, stopping at the first fault or refusal. -/
def runInstrs : List Instr → State → Host.Outcome State Fault Refusal
  | [], s => .next s
  | i :: is, s =>
    match exec i s with
    | .next t => runInstrs is t
    | .fault r => .fault r
    | .refused r => .refused r

/-- k steps of the machine, stopping at the first fault or refusal. -/
def runSteps : Nat → State → Host.Outcome State Fault Refusal
  | 0, s => .next s
  | k + 1, s =>
    match step s with
    | .next t => runSteps k t
    | .fault r => .fault r
    | .refused r => .refused r

/-- The next step of s performs this command, by a CMD write of the host (rule R176). -/
def State.Performs (s : State) (command : Instr) : Prop :=
  s.activity = .idle ∧ ∃ a rest w, s.pending = .access a :: rest ∧ a.refusal = none ∧ decode a.code = .wrCmd w ∧
    decodeCmd w = command

/-- The next step of s is a reset with this strap level. -/
def State.IsReset (s : State) (strap : Bool) : Prop :=
  s.activity = .idle ∧ ∃ rest, s.pending = .reset strap :: rest

/-- The instructions of some program lines, as the port decodes their accesses. -/
def instrsOf (lines : List AsmLine) : List Instr := lines.map fun l => decode l.access.code

/-- The bytes an instruction ingests in a state where FINALIZED = 0 (rules R148, R150). -/
def State.fedBy (s : State) (i : Instr) : List Byte :=
  match i.command with
  | .nop => []
  | .init => []
  | .ingestByte b => [b]
  | .ingestWord km1 => s.ingestOperand km1
  | .finalize => []
  | .illegal _ => []
  | .rdCmd => []
  | .wrCmd _ => []
  | .rdData => []
  | .wrData _ => []
  | .rdStatus => []
  | .rdDigest _ => []
  | .rdCountLo => []
  | .rdCountHi => []
  | .rdReserved _ => []
  | .wrIgnored _ _ => []
  | .ff _ => []
  | .gg _ => []
  | .hh _ => []
  | .ii _ => []

/-- `Ingests s m t`: with FINALIZED = 0, some instructions without an INIT or a FINALIZE among them lead from s to t and
ingest exactly the byte sequence m (rules R152, R162). Reads, DATA writes, NOPs and illegal words may stand between. -/
inductive Ingests : State → List Byte → State → Prop where
  | refl (s : State) : s.finalized = false → Ingests s [] s
  | step (s : State) (m : List Byte) (t u : State) (i : Instr) :
      Ingests s m t → i.continues → exec i t = .next u → Ingests s (m ++ t.fedBy i) u

/-- The state a digest computation starts from: that of `new()`, right after INIT or reset (rules R142, R230). -/
def State.Fresh (s : State) : Prop := s.h = initialHash ∧ s.count = 0 ∧ s.finalized = false

/-- The bytes BUF[0 .. FILL-1], the untransformed input (rule R23). -/
def State.pendingBytes (s : State) : List Byte := (List.range s.fill.toNat).map s.bufByte

/-- Two states agree but for HOST_BE, for the two words that cross the adapter (DATA and the port's last answer) and for what
is still to come (rule R174). -/
def State.SameButHostOrder (s t : State) : Prop :=
  t = { s with hostBe := t.hostBe, data := t.data, response := t.response, pending := t.pending }

end Sys2Proof.Machine
end

