-- ==== Sys2Proof/WellFormed.lean ====
section
/-! DEFINITION. Which instruction terms some encoding stands for: the operand of ILLEGAL, of RD_RESERVED and of
WR_IGNORED is limited by spec/30_encoding.md rules R73 and R80; every other operand may take every value of its field. -/

namespace Sys2Proof

/-- The (match, mask) pairs of the five commands, as rule R73 prints them. -/
def cmdRows : List (Word × Word) :=
  [ (0x00000000, 0xFFFFFFFF)   -- NOP
  , (0x10000000, 0xFFFFFFFF)   -- INIT
  , (0x20000000, 0xFFFFFF00)   -- INGEST_BYTE
  , (0x30000000, 0xFFFFFFFC)   -- INGEST_WORD
  , (0x40000000, 0xFFFFFFFF) ] -- FINALIZE

/-- "a word `w` selects the row when `w & mask = match`" (rule R73): some command's row selects w. -/
def isCommandWord (w : Word) : Bool :=
  cmdRows.any fun row => w &&& row.2 == row.1

/-- The instruction is the meaning of some encoding (rules R73, R80, R85). -/
def Instr.wf : Instr → Bool
  | .nop => true
  | .init => true
  | .ingestByte _ => true
  | .ingestWord _ => true
  | .finalize => true
  | .illegal w => !isCommandWord w
  | .rdCmd => true
  | .wrCmd _ => true
  | .rdData => true
  | .wrData _ => true
  | .rdStatus => true
  | .rdDigest _ => true
  | .rdCountLo => true
  | .rdCountHi => true
  | .rdReserved off => off == 3 || decide (10 ≤ off.toNat)
  | .wrIgnored off _ => decide (2 ≤ off.toNat)
  | .ff _ => true
  | .gg _ => true
  | .hh _ => true
  | .ii _ => true

end Sys2Proof
end

