-- ==== Sys2Proof/Certificates/Slice0/Obligations.lean ====
section
/-! DEFINITION. The statements about the model, from the numbered rules of spec/. -/

open Sys2Proof Sys2Proof.Machine

/-! ### Encoding -/

/-- Words written out from the encodings of spec/30_encoding.md decode to the instructions they stand for. How a table word
carries a code is the model's choice (notes/assumptions/8.md): in particular the 40-bit word is its own packing of a descriptor
byte and the word the write carries. -/
def Obligations.WrittenOutWordsDecode : Prop :=
  decodeTableWord 32 0x00000000 = some .nop ∧
  decodeTableWord 32 0x10000000 = some .init ∧
  decodeTableWord 32 0x200000FF = some (.ingestByte 0xFF) ∧
  decodeTableWord 32 0x30000003 = some (.ingestWord 3) ∧
  decodeTableWord 32 0x40000000 = some .finalize ∧
  decodeTableWord 32 0x28000041 = some (.illegal 0x28000041) ∧
  decodeTableWord 7 0b0000010 = some .rdStatus ∧
  decodeTableWord 7 0b0000110 = some (.rdDigest 2) ∧
  decodeTableWord 40 0x4443424141 = some (.wrData 0x44434241) ∧
  decodeTableWord 6 0b010011 = some (.gg 3)

/-- Decode and encode agree, for every well-formed instruction and every value of its operands (rules R73, R80, R85). -/
def Obligations.DecodeOfEncodeIsIdentity : Prop :=
  ∀ i : Instr, i.wf = true → decode (encode i) = i

/-- No word has two readings: encoding what a code decodes to gives the code back. Of a read, the word it does not carry
is dropped. -/
def Obligations.EncodeOfDecodeIsIdentity : Prop :=
  (∀ w, encode (decode (.cmd w)) = .cmd w) ∧
  (∀ rnd, encode (decode (.round rnd)) = .round rnd) ∧
  ∀ desc v, encode (decode (.bus desc v)) = .bus desc (if desc.getLsbD 6 then v else 0)

/-- Rule R73: the five rows by match and mask, ILLEGAL for every other word, and no word in two rows. -/
def Obligations.CommandWordsSelectedByMatchAndMask : Prop :=
  ∀ w : Word,
    (w &&& 0xFFFFFFFF = 0x00000000 ↔ decodeCmd w = .nop) ∧
    (w &&& 0xFFFFFFFF = 0x10000000 ↔ decodeCmd w = .init) ∧
    (w &&& 0xFFFFFF00 = 0x20000000 ↔ decodeCmd w = .ingestByte (w.extractLsb' 0 8)) ∧
    (w &&& 0xFFFFFFFC = 0x30000000 ↔ decodeCmd w = .ingestWord (w.extractLsb' 0 2)) ∧
    (byteCount (w.extractLsb' 0 2) = (w.extractLsb' 0 2).toNat + 1) ∧
    (w &&& 0xFFFFFFFF = 0x40000000 ↔ decodeCmd w = .finalize) ∧
    ((∀ row ∈ cmdRows, w &&& row.2 ≠ row.1) ↔ decodeCmd w = .illegal w) ∧
    ∀ row ∈ cmdRows, ∀ row' ∈ cmdRows, w &&& row.2 = row.1 → w &&& row'.2 = row'.1 → row = row'

/-- Rule R80: the descriptor of an admitted access, and the operation of each of the 128 descriptors. -/
def Obligations.AccessDescriptorsSelectOperations : Prop :=
  (∀ (off : BitVec 6) (v : Word),
    Access.code ⟨.host, .word, off ++ 0b00#2, .read⟩ = .bus (0#1 ++ off) 0 ∧
    Access.code ⟨.host, .word, off ++ 0b00#2, .write v⟩ = .bus (1#1 ++ off) v) ∧
  ∀ v : Word,
    decode (.bus (0#1 ++ 0#6) v) = .rdCmd ∧
    decode (.bus (1#1 ++ 0#6) v) = .wrCmd v ∧
    decode (.bus (0#1 ++ 1#6) v) = .rdData ∧
    decode (.bus (1#1 ++ 1#6) v) = .wrData v ∧
    decode (.bus (0#1 ++ 2#6) v) = .rdStatus ∧
    (∀ k : BitVec 2, decode (.bus (0#1 ++ (0b0001#4 ++ k)) v) = .rdDigest k) ∧
    decode (.bus (0#1 ++ 8#6) v) = .rdCountLo ∧
    decode (.bus (0#1 ++ 9#6) v) = .rdCountHi ∧
    (∀ off : BitVec 6, off = 3 ∨ 10 ≤ off.toNat → decode (.bus (0#1 ++ off) v) = .rdReserved off) ∧
    ∀ off : BitVec 6, 2 ≤ off.toNat → decode (.bus (1#1 ++ off) v) = .wrIgnored off v

/-- The pass and position of a round index select the round operation (rule R85). -/
def Obligations.RoundIndexSelectsOperation : Prop :=
  ∀ j : BitVec 4,
    decode (.round (0b00#2 ++ j)) = .ff j ∧ decode (.round (0b01#2 ++ j)) = .gg j ∧
    decode (.round (0b10#2 ++ j)) = .hh j ∧ decode (.round (0b11#2 ++ j)) = .ii j

/-! ### Words, rotation, byte order -/

/-- Rule R12: the rotate by its formula, its ends, amounts modulo 32; and it moves bit n to bit n + s modulo 32. -/
def Obligations.RotateFollowsItsFormula : Prop :=
  (∀ (x : Word) (s : Nat), 1 ≤ s → s ≤ 31 → rotl x s = (x <<< s) ||| (x >>> (32 - s))) ∧
  (∀ x : Word, rotl x 0 = x) ∧
  (∀ (x : Word) (s : Nat), rotl x s = rotl x (s % 32)) ∧
  ∀ (x : Word) (s n : Nat), n < 32 → (rotl x s).getLsbD ((n + s) % 32) = x.getLsbD n

/-- swap32 by the formula, as the full reversal of the four bytes, and its own inverse (rule R170, which marks the inverse and
the examples as derived from the formula). -/
def Obligations.SwapReversesTheFourBytes : Prop :=
  (∀ x : Word, swap32 x = (rotl x 8 &&& 0x00FF00FF) ||| (rotl x 24 &&& 0xFF00FF00)) ∧
  (∀ b0 b1 b2 b3 : Byte, swap32 (le32 b0 b1 b2 b3) = le32 b3 b2 b1 b0) ∧
  (∀ x : Word, swap32 (swap32 x) = x) ∧
  swap32 0x12345678 = 0x78563412 ∧ swap32 0x000000FF = 0xFF000000 ∧ swap32 0x00000000 = 0x00000000

/-- The little-endian word of four bytes and the bytes of a word are inverse to each other, and word j of a block is that of
its bytes 4j to 4j+3 (rules R13, R101). -/
def Obligations.WordsAndBytesAreLittleEndian : Prop :=
  (∀ b0 b1 b2 b3 : Byte, bytesLE32 (le32 b0 b1 b2 b3) = [b0, b1, b2, b3]) ∧
  (∀ w : Word, le32 (w.extractLsb' 0 8) (w.extractLsb' 8 8) (w.extractLsb' 16 8) (w.extractLsb' 24 8) = w) ∧
  ∀ (blk : Block) (j : Nat) (hj : j < 16),
    bytesLE32 ((words blk)[j]) = [blk[4 * j], blk[4 * j + 1], blk[4 * j + 2], blk[4 * j + 3]]

/-! ### The transform engine -/

/-- The truth table of the four nonlinear functions, bit by bit (rule R114, from rules R110 to R113). -/
def Obligations.NonlinearFunctionsBitByBit : Prop :=
  ∀ (b c d : Word) (n : Nat), n < 32 →
    (funF b c d).getLsbD n = (if b.getLsbD n then c.getLsbD n else d.getLsbD n) ∧
    (funG b c d).getLsbD n = (if d.getLsbD n then b.getLsbD n else c.getLsbD n) ∧
    (funH b c d).getLsbD n = ((b.getLsbD n ^^ c.getLsbD n) ^^ d.getLsbD n) ∧
    (funI b c d).getLsbD n = (c.getLsbD n ^^ (b.getLsbD n || !d.getLsbD n))

/-- The message-word index by its formulas (rule R105); each pass reads every word exactly once, which the rule marks as
derived from the formulas. -/
def Obligations.MessageWordOrderByPass : Prop :=
  (∀ j : BitVec 4,
    (msgIndex (0b00#2 ++ j)).toNat = j.toNat ∧
    (msgIndex (0b01#2 ++ j)).toNat = (1 + 5 * j.toNat) % 16 ∧
    (msgIndex (0b10#2 ++ j)).toNat = (5 + 3 * j.toNat) % 16 ∧
    (msgIndex (0b11#2 ++ j)).toNat = (7 * j.toNat) % 16) ∧
  ∀ (p : BitVec 2) (k : BitVec 4), ∃! j : BitVec 4, msgIndex (p ++ j) = k

/-- The sixteen shift amounts (rule R106, whose values are passage K2 of spec/93: general knowledge, in the spec's own words);
none is 0 or 32 and more (rule R124). -/
def Obligations.ShiftAmountsByPassAndPosition : Prop :=
  (∀ j : BitVec 4,
    shiftAmount (0b00#2 ++ j) = [7, 12, 17, 22].getD (j.toNat % 4) 0 ∧
    shiftAmount (0b01#2 ++ j) = [5, 9, 14, 20].getD (j.toNat % 4) 0 ∧
    shiftAmount (0b10#2 ++ j) = [4, 11, 16, 23].getD (j.toNat % 4) 0 ∧
    shiftAmount (0b11#2 ++ j) = [6, 10, 15, 21].getD (j.toNat % 4) 0) ∧
  ∀ rnd : BitVec 6, 1 ≤ shiftAmount rnd ∧ shiftAmount rnd ≤ 31

/-- FF (rules R110, R115): the new word with T[0..15] as rule R107 prints them, the register roles, and nothing else changed.
The shift amounts, constants and register roles of this and the next three are passages K2 to K4 of spec/93, which the spec
marks as general knowledge; that RND stays is the model's (notes/assumptions/13.md). -/
def Obligations.FfRoundOperation : Prop :=
  ∀ (j : BitVec 4) (s : State), ∃ e : Engine, exec (.ff j) s = .next { s with engine := e } ∧
    e.b = s.engine.b + rotl (s.engine.a + ((s.engine.b &&& s.engine.c) ||| (~~~s.engine.b &&& s.engine.d))
      + s.engine.x[j.toNat] + (
        [0xD76AA478, 0xE8C7B756, 0x242070DB, 0xC1BDCEEE, 0xF57C0FAF, 0x4787C62A, 0xA8304613, 0xFD469501,
         0x698098D8, 0x8B44F7AF, 0xFFFF5BB1, 0x895CD7BE, 0x6B901122, 0xFD987193, 0xA679438E, 0x49B40821] :
          List Word).getD j.toNat 0)
      ([7, 12, 17, 22].getD (j.toNat % 4) 0) ∧
    e = { s.engine with a := s.engine.d, b := e.b, c := s.engine.b, d := s.engine.c }

/-- GG (rules R111, R115), with T[16..31] as rule R107 prints them. -/
def Obligations.GgRoundOperation : Prop :=
  ∀ (j : BitVec 4) (s : State), ∃ e : Engine, exec (.gg j) s = .next { s with engine := e } ∧
    e.b = s.engine.b + rotl (s.engine.a + ((s.engine.b &&& s.engine.d) ||| (s.engine.c &&& ~~~s.engine.d))
      + s.engine.x[(1 + 5 * j.toNat) % 16] + (
        [0xF61E2562, 0xC040B340, 0x265E5A51, 0xE9B6C7AA, 0xD62F105D, 0x02441453, 0xD8A1E681, 0xE7D3FBC8,
         0x21E1CDE6, 0xC33707D6, 0xF4D50D87, 0x455A14ED, 0xA9E3E905, 0xFCEFA3F8, 0x676F02D9, 0x8D2A4C8A] :
          List Word).getD j.toNat 0)
      ([5, 9, 14, 20].getD (j.toNat % 4) 0) ∧
    e = { s.engine with a := s.engine.d, b := e.b, c := s.engine.b, d := s.engine.c }

/-- HH (rules R112, R115), with T[32..47] as rule R107 prints them. -/
def Obligations.HhRoundOperation : Prop :=
  ∀ (j : BitVec 4) (s : State), ∃ e : Engine, exec (.hh j) s = .next { s with engine := e } ∧
    e.b = s.engine.b + rotl (s.engine.a + (s.engine.b ^^^ s.engine.c ^^^ s.engine.d)
      + s.engine.x[(5 + 3 * j.toNat) % 16] + (
        [0xFFFA3942, 0x8771F681, 0x6D9D6122, 0xFDE5380C, 0xA4BEEA44, 0x4BDECFA9, 0xF6BB4B60, 0xBEBFBC70,
         0x289B7EC6, 0xEAA127FA, 0xD4EF3085, 0x04881D05, 0xD9D4D039, 0xE6DB99E5, 0x1FA27CF8, 0xC4AC5665] :
          List Word).getD j.toNat 0)
      ([4, 11, 16, 23].getD (j.toNat % 4) 0) ∧
    e = { s.engine with a := s.engine.d, b := e.b, c := s.engine.b, d := s.engine.c }

/-- II (rules R113, R115), with T[48..63] as rule R107 prints them. -/
def Obligations.IiRoundOperation : Prop :=
  ∀ (j : BitVec 4) (s : State), ∃ e : Engine, exec (.ii j) s = .next { s with engine := e } ∧
    e.b = s.engine.b + rotl (s.engine.a + (s.engine.c ^^^ (s.engine.b ||| ~~~s.engine.d))
      + s.engine.x[(7 * j.toNat) % 16] + (
        [0xF4292244, 0x432AFF97, 0xAB9423A7, 0xFC93A039, 0x655B59C3, 0x8F0CCC92, 0xFFEFF47D, 0x85845DD1,
         0x6FA87E4F, 0xFE2CE6E0, 0xA3014314, 0x4E0811A1, 0xF7537E82, 0xBD3AF235, 0x2AD7D2BB, 0xEB86D391] :
          List Word).getD j.toNat 0)
      ([6, 10, 15, 21].getD (j.toNat % 4) 0) ∧
    e = { s.engine with a := s.engine.d, b := e.b, c := s.engine.b, d := s.engine.c }

/-- The transform is what the round instructions, decoded from RND = 0 to 63 and run in this order on a loaded engine, leave
in a, b, c, d, plus the entry state word by word (rules R120, R121). -/
def Obligations.DecodedRoundsMakeTheTransform : Prop :=
  ∀ (h : Hash) (x : MsgWords) (s : State), ∃ e : Engine,
    runInstrs ((List.range 64).map fun i => decode (.round (BitVec.ofNat 6 i))) (s.setEngine (Engine.load h x))
      = .next (s.setEngine e) ∧
    transform h x = ⟨e.a + h.a, e.b + h.b, e.c + h.c, e.d + h.d⟩

/-- Transforms the spec works out (rule R124; spec/95_test_vectors.md section 2.5). -/
def Obligations.WorkedTransforms : Prop :=
  transform ⟨0, 0, 0, 0⟩ (words (Vector.replicate 64 0x00)) = ⟨0xF7CD1C97, 0xA5483681, 0x2B68D832, 0xF90CA639⟩ ∧
  transform initialHash (words (blockOf [0x80])) = ⟨0xD98C1DD4, 0x04B2008F, 0x980980E9, 0x7E42F8EC⟩ ∧
  transform initialHash (words (Vector.replicate 64 0x61)) = ⟨0x89D4FF56, 0x125CD962, 0x69CADE33, 0x0033E325⟩

/-! ### Reset -/

/-- Rule R38: the state after reset, where the rule gives values; what it leaves unspecified is not read: DIGESTk answers 0. -/
def Obligations.ResetLeavesTheNewState : Prop :=
  State.reset.h = ⟨0x67452301, 0xEFCDAB89, 0x98BADCFE, 0x10325476⟩ ∧ State.reset.count = 0 ∧ State.reset.fill = 0 ∧
  State.reset.finalized = false ∧ State.reset.errCode = 0 ∧ State.reset.data = 0x00000000 ∧
  State.reset.hostBe = Config.hostBeStrap ∧
  ∀ k, exec (.rdDigest k) State.reset = .next { State.reset with response := some 0x00000000 }

/-- A reset of the running machine, from any state with no command in progress, with the strap it samples (rule R230). That
what is still to come, the history and the count of free values go on is the model's choice (notes/assumptions/12.md). -/
def Obligations.ResetStepSamplesTheStrap : Prop :=
  ∀ (s : State) (strap : Bool) (rest : List Stimulus), s.activity = .idle → s.pending = .reset strap :: rest →
    ∃ t, step s = .next t ∧
      t.h = ⟨0x67452301, 0xEFCDAB89, 0x98BADCFE, 0x10325476⟩ ∧ t.count = 0 ∧ t.finalized = false ∧ t.errCode = 0 ∧
      t.data = 0x00000000 ∧ t.hostBe = strap ∧ t.activity = .idle ∧ t.pending = rest ∧ t.faults = s.faults ∧
      t.draws = s.draws

/-- Reset against INIT: H, COUNT, FINALIZED and ERR_CODE are set alike; INIT keeps DATA and HOST_BE; with DATA = 0 and the
strap as before, every register reads the same after both (rule R231). -/
def Obligations.ResetReadsLikeInit : Prop :=
  ∀ (s : State) (strap : Bool), ∃ t, exec .init s = .next t ∧
    (s.resetBy strap).h = t.h ∧ (s.resetBy strap).count = t.count ∧ (s.resetBy strap).finalized = t.finalized ∧
    (s.resetBy strap).errCode = t.errCode ∧ t.data = s.data ∧ t.hostBe = s.hostBe ∧
    (s.resetBy strap).data = 0x00000000 ∧ (s.resetBy strap).hostBe = strap ∧ (s.resetBy strap).activity = .idle ∧
    (s.data = 0x00000000 → s.hostBe = strap → ∀ i : Instr, i.isRead = true →
      ∃ v, exec i (s.resetBy strap) = .next { s.resetBy strap with response := some v } ∧
        exec i t = .next { t with response := some v })

/-! ### Commands -/

/-- NOP changes nothing, in any state; written to CMD it only completes the write (rule R140). -/
def Obligations.NopChangesNothing : Prop :=
  ∀ s : State, exec .nop s = .next s ∧ ∃ r, exec (.wrCmd 0x00000000) s = .next { s with response := r }

/-- INIT (rule R142), with all it leaves alone; and what STATUS, COUNT_LO, COUNT_HI and DIGESTk read then. That it also keeps
the engine's registers, PB and HF, which the spec leaves unspecified, is the model's (notes/assumptions/6.md). -/
def Obligations.InitStartsANewDigest : Prop :=
  ∀ s : State, ∃ t,
    exec .init s = .next t ∧
    t = { s with h := ⟨0x67452301, 0xEFCDAB89, 0x98BADCFE, 0x10325476⟩, count := 0, finalized := false,
                 errCode := 0 } ∧
    exec .rdStatus t = .next { t with response := some (if s.hostBe then 0x00000004 else 0x00000000) } ∧
    exec .rdCountLo t = .next { t with response := some 0 } ∧ exec .rdCountHi t = .next { t with response := some 0 } ∧
    ∀ k, exec (.rdDigest k) t = .next { t with response := some 0 }

/-- INGEST_BYTE (rules R145, R148): with FINALIZED = 0 the byte, the count, the transform at FILL = 63, and the frame, in which
only the engine's registers, unspecified after a transform, and the model's draw count may differ besides; with FINALIZED = 1
the error alone. That the engine's registers are kept short of FILL = 63, and PB and HF always, is the model's
(notes/assumptions/6.md). -/
def Obligations.IngestByteTakesOneByte : Prop :=
  ∀ (s : State) (b : Byte), s.buf.wf = true → ∃ t, exec (.ingestByte b) s = .next t ∧
    (s.finalized = false →
      t.count = s.count + 1 ∧ t.bufByte s.fill.toNat = b ∧ (∀ a, a ≠ s.fill.toNat → t.bufByte a = s.bufByte a) ∧
      (s.fill ≠ 63 → t = { s with buf := t.buf, count := t.count }) ∧
      (s.fill = 63 → t.h = transform s.h (words t.bufBlock) ∧ t.fill = 0 ∧
        t = { s with h := t.h, buf := t.buf, count := t.count, engine := t.engine, draws := t.draws })) ∧
    (s.finalized = true →
      t = { s with errCode := if s.errCode = 0 then 1 else s.errCode, faults := t.faults } ∧
      ∃ ev, t.faults = s.faults ++ [ev] ∧ ev.error = .ingestAfterFinalize)

/-- INGEST_BYTE and INGEST_WORD with FINALIZED = 1 are rejected and change nothing but the error and its history (rules R163,
R200); the digest reads as before. -/
def Obligations.IngestAfterFinalizeIsRejected : Prop :=
  ∀ (s : State) (i : Instr), s.finalized = true → (∃ b, i = .ingestByte b) ∨ (∃ km1, i = .ingestWord km1) →
    ∃ t, exec i s = .next t ∧ t = { s with errCode := if s.errCode = 0 then 1 else s.errCode, faults := t.faults } ∧
      (∃ ev, t.faults = s.faults ++ [ev] ∧ ev.error = .ingestAfterFinalize) ∧
      ∀ k, ∃ v, exec (.rdDigest k) s = .next { s with response := some v } ∧
        exec (.rdDigest k) t = .next { t with response := some v }

/-- INGEST_WORD (rule R150): with FINALIZED = 0 it is INGEST_BYTE of the first k bytes of adapt_in(DATA), in order, and keeps
DATA; with FINALIZED = 1 the error alone. -/
def Obligations.IngestWordTakesTheFirstBytes : Prop :=
  ∀ (s : State) (km1 : BitVec 2), ∃ t, exec (.ingestWord km1) s = .next t ∧
    (s.finalized = false →
      runInstrs ((List.range (km1.toNat + 1)).map fun m =>
        .ingestByte ((if s.hostBe then swap32 s.data else s.data).extractLsb' (8 * m) 8)) s = .next t ∧
      t.data = s.data ∧ t.count = s.count + BitVec.ofNat 64 (km1.toNat + 1)) ∧
    (s.finalized = true →
      t = { s with errCode := if s.errCode = 0 then 1 else s.errCode, faults := t.faults } ∧
      ∃ ev, t.faults = s.faults ++ [ev] ∧ ev.error = .ingestAfterFinalize)

/-- The frame of INGEST_WORD with FINALIZED = 0: the k bytes from BUF[FILL] on, across the end of the block, and nothing else of
BUF; no register but H and COUNT, and no flag (rules R57, R150). That PB and HF, which the spec leaves unspecified, are kept is
the model's (notes/assumptions/6.md). -/
def Obligations.IngestWordWritesOnlyItsBytes : Prop :=
  ∀ (s t : State) (km1 : BitVec 2), s.buf.wf = true → s.finalized = false → exec (.ingestWord km1) s = .next t →
    (∀ m, m ≤ km1.toNat →
      t.bufByte ((s.fill.toNat + m) % 64) = (if s.hostBe then swap32 s.data else s.data).extractLsb' (8 * m) 8) ∧
    (∀ a, (∀ m, m ≤ km1.toNat → a ≠ (s.fill.toNat + m) % 64) → t.bufByte a = s.bufByte a) ∧
    t = { s with h := t.h, buf := t.buf, count := t.count, engine := t.engine, draws := t.draws } ∧
    (s.fill.toNat + km1.toNat + 1 < 64 → t.h = s.h)

/-- FINALIZE (rules R155, R157, R158): one padding block for L <= 55, two for L >= 56, on a private copy; the frame, in which
only the internals, unspecified afterwards, may differ besides. -/
def Obligations.FinalizePadsAndHashes : Prop :=
  ∀ s : State, ∃ t, exec .finalize s = .next t ∧
    (s.fill.toNat ≤ 55 → t.digestH = transform s.h (words (blockOf
      (s.pendingBytes ++ [0x80] ++ List.replicate (55 - s.fill.toNat) 0x00 ++ bytesLE64 (s.count * 8))))) ∧
    (56 ≤ s.fill.toNat → t.digestH = transform
      (transform s.h (words (blockOf (s.pendingBytes ++ [0x80] ++ List.replicate (63 - s.fill.toNat) 0x00))))
      (words (blockOf (List.replicate 56 0x00 ++ bytesLE64 (s.count * 8))))) ∧
    t = { s with digestH := t.digestH, finalized := true, engine := t.engine, fin := t.fin, draws := t.draws }

/-- Rule R160: the length field is COUNT × 8 modulo 2^64 and wraps at 2^61 bytes. -/
def Obligations.LengthFieldWraps : Prop :=
  (∀ s : State, s.bitLength.toNat = (s.count.toNat * 8) % 2 ^ 64) ∧
  (∀ s : State, s.count.toNat = 2 ^ 61 → s.bitLength = 0) ∧
  ∀ s : State, s.count.toNat = 2 ^ 61 + 1 → s.bitLength = 8

/-- Rule R161: a second FINALIZE computes the same DIGEST_H again, raises no error and leaves FINALIZED = 1; neither changes
H, BUF or COUNT. -/
def Obligations.SecondFinalizeRepeatsTheDigest : Prop :=
  ∀ s : State, ∃ t u, exec .finalize s = .next t ∧ exec .finalize t = .next u ∧
    u.digestH = t.digestH ∧ t.finalized = true ∧ u.finalized = true ∧ u.errCode = s.errCode ∧ u.faults = s.faults ∧
    t.h = s.h ∧ t.buf = s.buf ∧ t.count = s.count ∧ u.h = s.h ∧ u.buf = s.buf ∧ u.count = s.count

/-- ILLEGAL raises ILLEGAL_COMMAND and has no other effect (rules R201, R203). -/
def Obligations.IllegalCommandOnlyRaises : Prop :=
  ∀ (s : State) (w : Word), ∃ t, exec (.illegal w) s = .next t ∧
    t = { s with errCode := if s.errCode = 0 then 2 else s.errCode, faults := t.faults } ∧
    ∃ ev, t.faults = s.faults ++ [ev] ∧ ev.error = .illegalCommand

/-- Rule R205: an illegal word written to CMD raises ILLEGAL_COMMAND whatever the state, FINALIZED = 1 and the ingest
operation codes included; a legal ingest word meets the FINALIZED check after it. One error a command. -/
def Obligations.DecodeComesBeforeTheFinalizedCheck : Prop :=
  (∀ (s : State) (w : Word), (∀ row ∈ cmdRows, w &&& row.2 ≠ row.1) →
    ∃ t, exec (.wrCmd w) s = .next t ∧
      t = { s with response := t.response, errCode := if s.errCode = 0 then 2 else s.errCode, faults := t.faults } ∧
      ∃ ev, t.faults = s.faults ++ [ev] ∧ ev.error = .illegalCommand) ∧
  ∀ (s : State) (w : Word), s.finalized = true → (w &&& 0xFFFFFF00 = 0x20000000 ∨ w &&& 0xFFFFFFFC = 0x30000000) →
    ∃ t, exec (.wrCmd w) s = .next t ∧
      t = { s with response := t.response, errCode := if s.errCode = 0 then 1 else s.errCode, faults := t.faults } ∧
      ∃ ev, t.faults = s.faults ++ [ev] ∧ ev.error = .ingestAfterFinalize

/-- Rule R203, over all instructions: one that raises an error raises one, keeps the first code, and changes nothing else but
the port's answer. -/
def Obligations.AnErrorIsTheOnlyEffect : Prop :=
  ∀ (i : Instr) (s t : State), exec i s = .next t → t.faults ≠ s.faults →
    ∃ ev : FaultEvent, t = { s with response := t.response,
                                    errCode := if s.errCode = 0 then ev.error.code else s.errCode,
                                    faults := s.faults ++ [ev] }

/-! ### Register accesses -/

/-- WR_CMD performs the command its word decodes to; RD_CMD answers 0 (rule R176). What the port holds as its answer while the
command runs is left open. -/
def Obligations.WriteToCmdPerformsItsCommand : Prop :=
  ∀ (s : State) (w : Word),
    (∃ t r, exec (.wrCmd w) s = .next t ∧ exec (decode (.cmd w)) { s with response := r } = .next t) ∧
    exec .rdCmd s = .next { s with response := some 0x00000000 }

/-- RD_RESERVED reads 0, RD_DATA the word last written, RD_COUNT_LO and RD_COUNT_HI the halves of COUNT; WR_DATA stores the
word unswapped and changes nothing else (rules R177, R180, R181). -/
def Obligations.RegistersReadTheirState : Prop :=
  ∀ s : State,
    (∀ off, exec (.rdReserved off) s = .next { s with response := some 0x00000000 }) ∧
    (∀ v, ∃ r, exec (.wrData v) s = .next { s with data := v, response := r }) ∧
    exec .rdData s = .next { s with response := some s.data } ∧
    ∃ lo hi, exec .rdCountLo s = .next { s with response := some lo } ∧
      exec .rdCountHi s = .next { s with response := some hi } ∧ s.count = hi ++ lo

/-- Rule R34: STATUS field by field; a write to it changes nothing. -/
def Obligations.StatusReadsItsFields : Prop :=
  ∀ s : State, ∃ w : Word, exec .rdStatus s = .next { s with response := some w } ∧
    w.getLsbD 0 = s.finalized ∧ w.getLsbD 1 = (s.errCode != 0) ∧ w.getLsbD 2 = s.hostBe ∧ w.getLsbD 3 = false ∧
    w.extractLsb' 4 4 = s.errCode ∧ w.extractLsb' 8 6 = s.count.extractLsb' 0 6 ∧ w.extractLsb' 14 18 = 0 ∧
    ∀ v, ∃ r, exec (.wrIgnored 2 v) s = .next { s with response := r }

/-- DIGESTk, before and after a FINALIZE, on either host (rules R36, R178). -/
def Obligations.DigestReadsAfterFinalize : Prop :=
  ∀ (s : State) (k : BitVec 2),
    (s.finalized = false → exec (.rdDigest k) s = .next { s with response := some 0x00000000 }) ∧
    (s.finalized = true → ∃ w, w = [s.digestH.a, s.digestH.b, s.digestH.c, s.digestH.d].getD k.toNat 0 ∧
      exec (.rdDigest k) s = .next { s with response := some (if s.hostBe then swap32 w else w) })

/-- WR_IGNORED changes no state of the CORE and raises no error (rule R182). -/
def Obligations.IgnoredWritesChangeNothing : Prop :=
  ∀ (s : State) (off : BitVec 6) (v : Word), ∃ r, exec (.wrIgnored off v) s = .next { s with response := r }

/-- No register read has a side effect, and reading again answers the same (rule R59). -/
def Obligations.ReadsHaveNoSideEffect : Prop :=
  ∀ (i : Instr) (s : State), i.isRead = true → ∃ v : Word,
    exec i s = .next { s with response := some v } ∧
    exec i { s with response := some v } = .next { s with response := some v }

/-! ### The endianness adapter -/

/-- Rule R172: if the host wrote DATA = HostWord(b0, …, b3), the first k of b0, …, b3 are what INGEST_WORD takes, on either
host. -/
def Obligations.DataReachesBufInHostOrder : Prop :=
  ∀ (s : State) (km1 : BitVec 2) (b0 b1 b2 b3 : Byte), s.finalized = false →
    adaptIn s.hostBe (hostWord s.hostBe b0 b1 b2 b3) = le32 b0 b1 b2 b3 ∧
    ∃ t u, exec (.wrData (hostWord s.hostBe b0 b1 b2 b3)) s = .next t ∧ exec (.ingestWord km1) t = .next u ∧
      runInstrs (([b0, b1, b2, b3].take (km1.toNat + 1)).map .ingestByte) t = .next u

/-- Rule R173: the four digest words, read and stored natively, are the digest bytes in order, on either host. -/
def Obligations.DigestWordsStoreAsDigestBytes : Prop :=
  ∀ s : State, s.finalized = true → ∃ d : BitVec 2 → Word,
    (∀ k, exec (.rdDigest k) s = .next { s with response := some (d k) }) ∧
    storedBytes s.hostBe (d 0) ++ storedBytes s.hostBe (d 1) ++ storedBytes s.hostBe (d 2) ++ storedBytes s.hostBe (d 3)
      = bytesLE32 s.digestH.a ++ bytesLE32 s.digestH.b ++ bytesLE32 s.digestH.c ++ bytesLE32 s.digestH.d

/-- Rule R174: for every byte sequence, two hosts of either order that ingest it with INGEST and finalize are left in the same
state, but for the words that cross the adapter, and store the same 16 digest bytes. That the engine's registers, PB and HF,
which the spec leaves unspecified, agree too is the model's (notes/assumptions/6.md). -/
def Obligations.DigestDoesNotDependOnHostOrder : Prop :=
  ∀ (m : List Byte) (s t : State), s.SameButHostOrder t → ∃ s' t',
    runInstrs (instrsOf (ingestLines s.hostBe m ++ [.finalize])) s = .next s' ∧
    runInstrs (instrsOf (ingestLines t.hostBe m ++ [.finalize])) t = .next t' ∧
    s'.SameButHostOrder t' ∧
    storedBytes s.hostBe (s'.digestRead 0) ++ storedBytes s.hostBe (s'.digestRead 1) ++
        storedBytes s.hostBe (s'.digestRead 2) ++ storedBytes s.hostBe (s'.digestRead 3)
      = storedBytes t.hostBe (t'.digestRead 0) ++ storedBytes t.hostBe (t'.digestRead 1) ++
        storedBytes t.hostBe (t'.digestRead 2) ++ storedBytes t.hostBe (t'.digestRead 3)

/-! ### The step -/

/-- An admitted access of the host at the port is taken and its decoded instruction run (rules R55, R176). -/
def Obligations.StepRunsTheDecodedAccess : Prop :=
  ∀ (s : State) (offset : BitVec 8) (dir : Direction) (rest : List Stimulus), s.activity = .idle →
    s.pending = .access ⟨.host, .word, offset, dir⟩ :: rest → offset.extractLsb' 0 2 = 0 →
    step s = exec (decode (Access.code ⟨.host, .word, offset, dir⟩)) { s with pending := rest }

/-- The host's accesses take effect one at a time, in the order issued, each on the state the earlier ones left (rules R55,
R63): stepping through the lines of a program is running their instructions in order. -/
def Obligations.AccessesTakeEffectInOrder : Prop :=
  ∀ (lines : List AsmLine) (s : State), s.activity = .idle → (∀ l ∈ lines, l.access.refusal = none) → ∃ t,
    runSteps lines.length { s with pending := asStimuli lines } = .next t ∧
    runInstrs (instrsOf lines) { s with pending := [] } = .next t

/-- Inside a transform the round that RND selects is decoded and run; RND goes on by one, up to the last round. The host waits
(rules R31, R55, R85). -/
def Obligations.StepRunsTheDecodedRound : Prop :=
  ∀ s : State, s.activity ≠ .idle → ∃ t, exec (decode (.round s.engine.rnd)) s = .next t ∧
    step s = .next t.afterRound ∧
    (s.engine.rnd ≠ 63 → t.afterRound = { t with engine := { t.engine with rnd := s.engine.rnd + 1 } })

/-- What the spec refuses is refused by name: a second agent, an access not 32 bits wide or not aligned, an access while reset
is asserted, a reset during a command (rules R56, R63, R230, R232). The order of the checks (notes/assumptions/15.md), and that
a reset during an access that carries no command is refused too (notes/assumptions/12.md), are the model's. -/
def Obligations.RunsOutsideTheSpecAreRefused : Prop :=
  ∀ (s : State) (a : Access) (rest : List Stimulus), s.activity = .idle →
    (s.pending = .access a :: rest →
      (a.agent = .other → step s = .refused .secondAgent) ∧
      (a.agent = .host → a.width ≠ .word → step s = .refused .accessNotWordWide) ∧
      (a.agent = .host → a.width = .word → a.offset.extractLsb' 0 2 ≠ 0 → step s = .refused .accessUnaligned)) ∧
    (s.pending = .accessInReset a :: rest → step s = .refused .accessWhileReset) ∧
    (s.pending = .resetDuring a :: rest → step s = .refused .resetDuringCommand)

/-- With nothing to come, the state is kept (rule R220). -/
def Obligations.StateIsKeptWhenNothingComes : Prop :=
  ∀ s : State, s.activity = .idle → s.pending = [] → step s = .next s

/-- Every instruction completes in every state, and a step never faults (rule R245; spec/93 section 2). -/
def Obligations.EveryInstructionCompletes : Prop :=
  (∀ (i : Instr) (s : State), ∃ t, exec i s = .next t) ∧
  (∀ (s : State) (r : Fault), step s ≠ .fault r) ∧
  ∀ s : State, s.activity ≠ .idle → ∃ t, step s = .next t

/-! ### Whole-machine rules -/

/-- ERR_CODE changes only by INIT and reset, which clear it, and by a usage error met while it is 0, whose code it takes; every
error is added to the history, which nothing erases (rule R204). The rule says that INIT does not erase the history; that a reset
does not either, and the history's form, are the model's (notes/assumptions/10.md, 12.md). -/
def Obligations.OnlyInitAndResetClearTheError : Prop :=
  ∀ s t : State, step s = .next t →
    (t.errCode ≠ s.errCode →
      (t.errCode = 0 ∧ (s.Performs .init ∨ ∃ strap, s.IsReset strap)) ∨
      (s.errCode = 0 ∧ ∃ ev, t.faults = s.faults ++ [ev] ∧ t.errCode = ev.error.code)) ∧
    (s.Performs .init ∨ (∃ strap, s.IsReset strap) → t.errCode = 0) ∧
    ∃ more, t.faults = s.faults ++ more

/-- Rule R26: FINALIZED becomes 1 where a FINALIZE completes, 0 by INIT and by reset, and is kept by every other step. -/
def Obligations.FinalizedFromFinalizeToInit : Prop :=
  ∀ s t : State, step s = .next t →
    (s.Performs .finalize ∨ (s.activity = .finalizing false ∧ s.engine.rnd = 63) → t.finalized = true) ∧
    (s.Performs .init ∨ (∃ strap, s.IsReset strap) → t.finalized = false) ∧
    (¬ s.Performs .finalize → ¬ (s.activity = .finalizing false ∧ s.engine.rnd = 63) → ¬ s.Performs .init →
      (∀ strap, ¬ s.IsReset strap) → t.finalized = s.finalized)

/-- Rule R27: HOST_BE is the strap sampled at reset, and every other step keeps it. -/
def Obligations.HostOrderFixedBetweenResets : Prop :=
  ∀ s t : State, step s = .next t →
    (∀ strap, s.IsReset strap → t.hostBe = strap) ∧ ((∀ strap, ¬ s.IsReset strap) → t.hostBe = s.hostBe)

/-- DATA is the word of the last host write to DATA, 0 after a reset, and every other step keeps it (rules R28, R38). -/
def Obligations.DataIsTheLastWordWritten : Prop :=
  ∀ s t : State, step s = .next t →
    (∀ strap, s.IsReset strap → t.data = 0x00000000) ∧
    (∀ a rest v, s.activity = .idle → s.pending = .access a :: rest → decode a.code = .wrData v → t.data = v) ∧
    ((∀ strap, ¬ s.IsReset strap) →
      (∀ a rest v, s.activity = .idle → s.pending = .access a :: rest → decode a.code ≠ .wrData v) → t.data = s.data)

/-- H, by every instruction and by every step (rules R21, R122, R142, R145, R230): INIT and reset set it; an ingestion that
completes a block replaces it by one transform of the old H and that block, which is the bytes pending and the first of those
ingested; in a command in progress the last round of that transform does, by the final addition; nothing else changes it. -/
def Obligations.HashAdvancesOncePerBlock : Prop :=
  (∀ (i : Instr) (s t : State), s.buf.wf = true → exec i s = .next t →
    (i.command = .init → t.h = ⟨0x67452301, 0xEFCDAB89, 0x98BADCFE, 0x10325476⟩) ∧
    (s.finalized = false → 64 ≤ s.fill.toNat + (s.fedBy i).length →
      t.h = transform s.h (words (blockOf (s.pendingBytes ++ s.fedBy i)))) ∧
    (i.command ≠ .init → (s.finalized = true ∨ s.fill.toNat + (s.fedBy i).length < 64) → t.h = s.h)) ∧
  ∀ s t : State, step s = .next t →
    (∀ strap, s.IsReset strap → t.h = ⟨0x67452301, 0xEFCDAB89, 0x98BADCFE, 0x10325476⟩) ∧
    (∀ a rest, s.activity = .idle → s.pending = .access a :: rest →
      exec (decode a.code) { s with pending := rest } = .next t) ∧
    (∀ rest, s.activity = .ingesting rest → s.engine.rnd = 63 → ∃ e : Engine,
      exec (decode (.round 63)) s = .next { s with engine := e } ∧
      t.h = ⟨e.a + e.a0, e.b + e.b0, e.c + e.c0, e.d + e.d0⟩) ∧
    (s.activity ≠ .idle → ((∀ rest, s.activity ≠ .ingesting rest) ∨ s.engine.rnd ≠ 63) → t.h = s.h) ∧
    (s.activity = .idle → s.pending = [] → t.h = s.h)

/-- The invariant at reset. -/
def Obligations.ResetMeetsTheInvariant : Prop := State.reset.Inv

/-- The invariant at every step: BUF's store stays canonical, ERR_CODE one of 0, 1, 2 (rule R35), a nonzero ERR_CODE explained
by the history. -/
def Obligations.StepKeepsTheInvariant : Prop :=
  ∀ s t : State, s.Inv → step s = .next t → t.Inv

/-! ### Headlines -/

/-- FINALIZE taken whole is FINALIZE taken round by round: 64 or 128 steps of the engine (rules R58, R120, R159, R245). -/
def Obligations.FinalizeRoundByRound : Prop :=
  ∀ s t : State, s.activity = .idle → exec .finalize s = .next t →
    runSteps (if s.fill.toNat ≤ 55 then 64 else 128) s.beginFinalize = .next t

/-- An ingestion taken whole is the ingestion taken round by round, 64 steps for each block it completes (rules R58, R120,
R145, R245). -/
def Obligations.IngestionRoundByRound : Prop :=
  ∀ (i : Instr) (s t : State), (∃ b, i = .ingestByte b) ∨ (∃ km1, i = .ingestWord km1) → s.activity = .idle →
    s.finalized = false → exec i s = .next t →
    runSteps (64 * ((s.fill.toNat + (s.fedBy i).length) / 64)) (State.beginIngest (s.fedBy i) s) = .next t

/-- Rule R153: however a byte sequence is split over INGEST_BYTE and INGEST_WORD commands, H, COUNT and BUF[0..FILL-1] come
out the same, and so does the digest. -/
def Obligations.ChunkBoundariesDoNotMatter : Prop :=
  ∀ (s t t' : State) (m : List Byte), s.buf.wf = true → Ingests s m t → Ingests s m t' →
    t.h = t'.h ∧ t.count = t'.count ∧ t.pendingBytes = t'.pendingBytes ∧
    ∃ u u', exec .finalize t = .next u ∧ exec .finalize t' = .next u' ∧ u.digestH = u'.digestH

/-- Rule R162, the whole-message law: from a fresh state, whatever instructions ingest the byte sequence m, FINALIZE leaves in
DIGEST_H the transform taken over every block of the padded message. -/
def Obligations.WholeMessageLaw : Prop :=
  ∀ (s t : State) (m : List Byte) (z : Nat), s.Fresh → s.buf.wf = true → Ingests s m t → LeastPadding m z →
    ∃ u, exec .finalize t = .next u ∧ u.digestH = messageDigest m z ∧ u.finalized = true

/-- Stepping one instance, or routing an access to one, leaves every other as it was (rule R218). The platform as a list whose
step the caller names (notes/assumptions/16.md) and the offset of an address in a window (notes/assumptions/2.md) are the
model's choices. -/
def Obligations.InstancesShareNoState : Prop :=
  (∀ (p q : Platform) (k : Nat), Platform.stepAt k p = .next q →
    q.length = p.length ∧ (∀ j, j ≠ k → q[j]? = p[j]?) ∧ q.map CoreInstance.base = p.map CoreInstance.base) ∧
  ∀ (p : Platform) (agent : Agent) (width : Width) (addr : BitVec 32) (dir : Direction) (j : Nat) (i : CoreInstance),
    p[j]? = some i → windowOffset i.base addr = none → (Platform.route agent width addr dir p)[j]? = some i
end

