-- ==== Sys2Proof/Laws/Decode.lean ====
section
/-! SUPPORT. What the decoders can give: the lines of rule R72 as arithmetic on the word, one line for every word, and only
well-formed instructions. -/

namespace Sys2Proof

theorem extract_eq_iff {n : Nat} (w : BitVec n) (start len : Nat) (v : BitVec len) :
    w.extractLsb' start len = v ↔ w.toNat / 2 ^ start % 2 ^ len = v.toNat := by
  rw [← BitVec.toNat_inj, BitVec.extractLsb'_toNat, Nat.shiftRight_eq_div_pow]

theorem opcOf_eq_iff (w : Word) (v : BitVec 4) : opcOf w = v ↔ w.toNat / 2 ^ 28 % 2 ^ 4 = v.toNat :=
  extract_eq_iff w 28 4 v

/-- A mask of ones from bit k up keeps exactly the bits above. -/
theorem and_mask_eq_iff (w m c : Word) (k : Nat) (hm : ∀ i, i < 32 → m.getLsbD i = decide (k ≤ i))
    (hc : ∀ i, i < 32 → i < k → c.getLsbD i = false) :
    w &&& m = c ↔ w.toNat / 2 ^ k = c.toNat / 2 ^ k := by
  have toNats : ∀ v : Word, v.toNat / 2 ^ k = (v >>> k).toNat := fun v => by
    rw [BitVec.toNat_ushiftRight, Nat.shiftRight_eq_div_pow]
  rw [toNats, toNats, BitVec.toNat_inj]
  constructor
  · rintro rfl
    apply BitVec.eq_of_getLsbD_eq
    intro i hi
    rw [BitVec.getLsbD_ushiftRight, BitVec.getLsbD_ushiftRight, BitVec.getLsbD_and]
    by_cases hki : k + i < 32
    · rw [hm _ hki, decide_eq_true (Nat.le_add_right k i), Bool.and_true]
    · rw [BitVec.getLsbD_of_ge w _ (by omega), Bool.false_and]
  · intro h
    apply BitVec.eq_of_getLsbD_eq
    intro i hi
    rw [BitVec.getLsbD_and, hm i hi]
    by_cases hik : k ≤ i
    · have := congrArg (fun v => v.getLsbD (i - k)) h
      simp only [BitVec.getLsbD_ushiftRight] at this
      rw [Nat.add_sub_cancel' hik] at this
      rw [this, decide_eq_true hik, Bool.and_true]
    · rw [hc i hi (by omega), decide_eq_false hik, Bool.and_false]

theorem mask8_iff (w : Word) : w &&& 0xFFFFFF00 = 0x20000000 ↔ w.toNat / 2 ^ 8 = 0x200000 :=
  and_mask_eq_iff w 0xFFFFFF00 0x20000000 8 (by decide) (by decide)

theorem mask2_iff (w : Word) : w &&& 0xFFFFFFFC = 0x30000000 ↔ w.toNat / 2 ^ 2 = 0xC000000 :=
  and_mask_eq_iff w 0xFFFFFFFC 0x30000000 2 (by decide) (by decide)

theorem mask0_iff (w c : Word) : w &&& 0xFFFFFFFF = c ↔ w.toNat = c.toNat := by
  rw [← BitVec.toNat_inj, show (0xFFFFFFFF : Word) = BitVec.allOnes 32 from rfl, BitVec.and_allOnes]

/-- The lines of rule R72, each with its condition on the word as a number. -/
theorem caseCmd_eq {α : Type} (w : Word) (nop init : α) (ib : Byte → α) (iw : BitVec 2 → α) (fin ill : α) :
    caseCmd w nop init ib iw fin ill =
      if w.toNat = 0x00000000 then nop
      else if w.toNat = 0x10000000 then init
      else if w.toNat / 2 ^ 8 = 0x200000 then ib (w.extractLsb' 0 8)
      else if w.toNat / 2 ^ 2 = 0xC000000 then iw (w.extractLsb' 0 2)
      else if w.toNat = 0x40000000 then fin
      else ill := by
  have hw := w.isLt
  unfold caseCmd
  simp only [opcOf_eq_iff, extract_eq_iff]
  have h0 : (0x0 : BitVec 4).toNat = 0 := rfl
  have h1 : (0x1 : BitVec 4).toNat = 1 := rfl
  have h2 : (0x2 : BitVec 4).toNat = 2 := rfl
  have h3 : (0x3 : BitVec 4).toNat = 3 := rfl
  have h4 : (0x4 : BitVec 4).toNat = 4 := rfl
  have z28 : (0 : BitVec 28).toNat = 0 := rfl
  have z20 : (0 : BitVec 20).toNat = 0 := rfl
  have z26 : (0 : BitVec 26).toNat = 0 := rfl
  simp only [h0, h1, h2, h3, h4, z28, z20, z26]
  congr 1
  · apply propext; omega
  congr 1
  · apply propext; omega
  congr 1
  · apply propext; omega
  congr 1
  · apply propext; omega
  congr 1
  apply propext; omega

/-- The case analysis of rule R72 commutes with any function. -/
theorem caseCmd_map {α β : Type} (f : α → β) (w : Word) (nop init : α) (ib : Byte → α) (iw : BitVec 2 → α)
    (fin ill : α) :
    f (caseCmd w nop init ib iw fin ill)
      = caseCmd w (f nop) (f init) (fun b => f (ib b)) (fun k => f (iw k)) (f fin) (f ill) := by
  unfold caseCmd
  repeat' split
  all_goals rfl

/-- A property of every line of rule R72 holds of the line selected. -/
theorem caseCmd_induction {α : Type} {P : α → Prop} (w : Word) {nop init : α} {ib : Byte → α} {iw : BitVec 2 → α}
    {fin ill : α} (hnop : P nop) (hinit : P init) (hib : ∀ b, P (ib b)) (hiw : ∀ k, P (iw k)) (hfin : P fin)
    (hill : P ill) : P (caseCmd w nop init ib iw fin ill) := by
  unfold caseCmd
  repeat' split
  all_goals first | exact hnop | exact hinit | exact hib _ | exact hiw _ | exact hfin | exact hill

/-- The rows of rule R73, as numbers. -/
theorem isCommandWord_iff (w : Word) : isCommandWord w = true ↔
    w.toNat = 0x00000000 ∨ w.toNat = 0x10000000 ∨ w.toNat / 2 ^ 8 = 0x200000 ∨ w.toNat / 2 ^ 2 = 0xC000000 ∨
      w.toNat = 0x40000000 := by
  simp only [isCommandWord, cmdRows, List.any_cons, List.any_nil, Bool.or_eq_true, beq_iff_eq, mask0_iff, mask8_iff,
    mask2_iff, Bool.false_eq_true, or_false]
  rfl

theorem decodeCmd_wf (w : Word) : (decodeCmd w).wf = true := by
  unfold decodeCmd
  rw [caseCmd_eq]
  repeat' split
  all_goals first
    | rfl
    | (simp only [Instr.wf, Bool.not_eq_true', Bool.eq_false_iff, ne_eq, isCommandWord_iff]; omega)

theorem decodeBus_wf (desc : BitVec 7) (v : Word) : (decodeBus desc v).wf = true := by
  have reads : ∀ off : BitVec 6, off ≠ 0 → off ≠ 1 → off ≠ 2 → off.extractLsb' 2 4 ≠ 1 → off ≠ 8 → off ≠ 9 →
      (off == 3 || decide (10 ≤ off.toNat)) = true := by
    intro off h0 h1 h2 h4 h8 h9
    rw [ne_eq, extract_eq_iff] at h4
    rw [Bool.or_eq_true, beq_iff_eq, decide_eq_true_eq]
    have h4' : off.toNat / 4 % 16 ≠ 1 := h4
    bv_omega
  have writes : ∀ off : BitVec 6, off ≠ 0 → off ≠ 1 → decide (2 ≤ off.toNat) = true := by
    intro off h0 h1
    rw [decide_eq_true_eq]
    bv_omega
  unfold decodeBus
  dsimp only
  generalize desc.extractLsb' 0 6 = off
  repeat' split
  all_goals first
    | rfl
    | exact writes off ‹_› ‹_›
    | exact reads off ‹_› ‹_› ‹_› ‹_› ‹_› ‹_›

theorem decodeRound_wf (rnd : BitVec 6) : (decodeRound rnd).wf = true := by
  unfold decodeRound
  simp only
  repeat' split
  all_goals rfl

/-- Every decoder gives well-formed instructions only. -/
theorem decode_wf (c : Code) : (decode c).wf = true := by
  cases c with
  | cmd w => exact decodeCmd_wf w
  | bus desc v => exact decodeBus_wf desc v
  | round rnd => exact decodeRound_wf rnd

end Sys2Proof
end

