-- ==== Sys2Proof/Laws/Memory.lean ====
section
/-! SUPPORT. The store behind BUF: a read after a write, what a write leaves alone, and the canonical form that every write
keeps and that makes equal stores equal data. -/

namespace Sys2Proof.Machine

theorem Memory.read_nil (a : Nat) : Memory.read [] a = Memory.blank := rfl

theorem Memory.read_cons (k : Nat) (v : Byte) (m : Memory) (a : Nat) :
    Memory.read ((k, v) :: m) a = if a = k then v else Memory.read m a := rfl

/-- Below the lowest listed address everything reads blank. -/
theorem Memory.read_of_wfFrom {lo : Nat} {m : Memory} (h : Memory.wfFrom lo m = true) {a : Nat} (ha : a < lo) :
    Memory.read m a = Memory.blank := by
  induction m generalizing lo with
  | nil => rfl
  | cons c m ih =>
    obtain ⟨k, v⟩ := c
    simp only [Memory.wfFrom, Bool.and_eq_true, decide_eq_true_eq] at h
    rw [Memory.read_cons, if_neg (by omega), ih h.2 (by omega)]

theorem Memory.wfFrom_mono {lo lo' : Nat} {m : Memory} (h : Memory.wfFrom lo m = true) (hl : lo' ≤ lo) :
    Memory.wfFrom lo' m = true := by
  cases m with
  | nil => rfl
  | cons c m =>
    obtain ⟨k, v⟩ := c
    simp only [Memory.wfFrom, Bool.and_eq_true, decide_eq_true_eq] at h ⊢
    exact ⟨⟨⟨by omega, h.1.1.2⟩, h.1.2⟩, h.2⟩

/-- Reading an entry just put in front of a store that lists nothing at or below it. -/
theorem Memory.read_entry {a : Nat} {m : Memory} (h : Memory.wfFrom (a + 1) m = true) (v : Byte) (b : Nat) :
    Memory.read (Memory.entry a v m) b = if b = a then v else Memory.read m b := by
  unfold Memory.entry
  split
  · next hv =>
    split
    · next hb => rw [hb, Memory.read_of_wfFrom h (by omega), hv]
    · rfl
  · exact Memory.read_cons a v m b

theorem Memory.wfFrom_entry {lo a : Nat} {m : Memory} (h : Memory.wfFrom (a + 1) m = true) (hlo : lo ≤ a)
    (ha : a < Memory.size) (v : Byte) : Memory.wfFrom lo (Memory.entry a v m) = true := by
  unfold Memory.entry
  split
  · exact Memory.wfFrom_mono h (by omega)
  · next hv => simp [Memory.wfFrom, hlo, ha, hv, h]

/-- A read after a write: the byte written at its address, every other byte as before. -/
theorem Memory.read_write_from {lo : Nat} {m : Memory} (h : Memory.wfFrom lo m = true) (a : Nat) (v : Byte) (b : Nat) :
    Memory.read (Memory.write m a v) b = if b = a then v else Memory.read m b := by
  induction m generalizing lo with
  | nil => exact Memory.read_entry rfl v b
  | cons c m ih =>
    obtain ⟨k, w⟩ := c
    simp only [Memory.wfFrom, Bool.and_eq_true, decide_eq_true_eq] at h
    obtain ⟨⟨⟨hlo, hk⟩, hw⟩, hm⟩ := h
    unfold Memory.write
    split
    · next hak =>
      exact Memory.read_entry (by simp only [Memory.wfFrom, Bool.and_eq_true, decide_eq_true_eq]
                                  exact ⟨⟨⟨by omega, hk⟩, hw⟩, hm⟩) v b
    · next hak =>
      split
      · next hka =>
        subst hka
        rw [Memory.read_entry hm, Memory.read_cons]
        split <;> rfl
      · next hka =>
        rw [Memory.read_cons, Memory.read_cons, ih hm]
        split
        · next hbk => rw [if_neg (by omega)]
        · rfl

/-- Every write inside the address space keeps the canonical form. -/
theorem Memory.wfFrom_write {lo : Nat} {m : Memory} (h : Memory.wfFrom lo m = true) {a : Nat} (hlo : lo ≤ a)
    (ha : a < Memory.size) (v : Byte) : Memory.wfFrom lo (Memory.write m a v) = true := by
  induction m generalizing lo with
  | nil => exact Memory.wfFrom_entry rfl hlo ha v
  | cons c m ih =>
    obtain ⟨k, w⟩ := c
    have h' := h
    simp only [Memory.wfFrom, Bool.and_eq_true, decide_eq_true_eq] at h
    obtain ⟨⟨⟨hlk, hk⟩, hw⟩, hm⟩ := h
    unfold Memory.write
    split
    · next hak =>
      exact Memory.wfFrom_entry (by simp only [Memory.wfFrom, Bool.and_eq_true, decide_eq_true_eq]
                                    exact ⟨⟨⟨by omega, hk⟩, hw⟩, hm⟩) hlo ha v
    · next hak =>
      split
      · next hka => subst hka; exact Memory.wfFrom_entry hm hlo ha v
      · next hka =>
        simp only [Memory.wfFrom, Bool.and_eq_true, decide_eq_true_eq]
        exact ⟨⟨⟨hlk, hk⟩, hw⟩, ih hm (by omega)⟩

theorem Memory.read_write {m : Memory} (h : m.wf = true) (a : Nat) (v : Byte) (b : Nat) :
    Memory.read (Memory.write m a v) b = if b = a then v else Memory.read m b :=
  Memory.read_write_from h a v b

theorem Memory.wf_write {m : Memory} (h : m.wf = true) {a : Nat} (ha : a < Memory.size) (v : Byte) :
    (Memory.write m a v).wf = true :=
  Memory.wfFrom_write h (Nat.zero_le a) ha v

theorem Memory.wf_nil : Memory.wf [] = true := rfl

/-- Canonical stores that read alike are the same list. -/
theorem Memory.ext_of_read_from {lo : Nat} {m n : Memory} (hm : Memory.wfFrom lo m = true)
    (hn : Memory.wfFrom lo n = true) (h : ∀ a, Memory.read m a = Memory.read n a) : m = n := by
  induction m generalizing lo n with
  | nil =>
    cases n with
    | nil => rfl
    | cons c n =>
      obtain ⟨k, v⟩ := c
      simp only [Memory.wfFrom, Bool.and_eq_true, decide_eq_true_eq, bne_iff_ne] at hn
      have hk := h k
      rw [Memory.read_nil, Memory.read_cons, if_pos rfl] at hk
      exact absurd hk.symm hn.1.2
  | cons c m ih =>
    obtain ⟨k, v⟩ := c
    simp only [Memory.wfFrom, Bool.and_eq_true, decide_eq_true_eq, bne_iff_ne] at hm
    cases n with
    | nil =>
      have hk := h k
      rw [Memory.read_nil, Memory.read_cons, if_pos rfl] at hk
      exact absurd hk hm.1.2
    | cons c n =>
      obtain ⟨k', v'⟩ := c
      simp only [Memory.wfFrom, Bool.and_eq_true, decide_eq_true_eq, bne_iff_ne] at hn
      have hk := h k
      have hk' := h k'
      rw [Memory.read_cons, if_pos rfl, Memory.read_cons] at hk
      rw [Memory.read_cons, Memory.read_cons, if_pos rfl] at hk'
      by_cases hkk : k = k'
      · subst hkk
        rw [if_pos rfl] at hk
        subst hk
        rw [ih hm.2 hn.2 fun a => ?_]
        have ha := h a
        rw [Memory.read_cons, Memory.read_cons] at ha
        by_cases hak : a = k
        · subst hak
          rw [Memory.read_of_wfFrom hm.2 (by omega), Memory.read_of_wfFrom hn.2 (by omega)]
        · rwa [if_neg hak, if_neg hak] at ha
      · rw [if_neg hkk] at hk
        rw [if_neg (fun e => hkk e.symm)] at hk'
        rcases Nat.lt_or_gt_of_ne hkk with hlt | hlt
        · rw [Memory.read_of_wfFrom hn.2 (by omega)] at hk
          exact absurd hk hm.1.2
        · rw [Memory.read_of_wfFrom hm.2 (by omega)] at hk'
          exact absurd hk'.symm hn.1.2

theorem Memory.ext_of_read {m n : Memory} (hm : m.wf = true) (hn : n.wf = true)
    (h : ∀ a, Memory.read m a = Memory.read n a) : m = n :=
  Memory.ext_of_read_from hm hn h

end Sys2Proof.Machine
end

