-- ==== Sys2Proof/Laws/State.lean ====
section
/-! SUPPORT. What every named update of State leaves in every field, by rfl; and what it leaves of the values computed from
the fields. No later proof unfolds a record update. The parentheses of `(rfl)` keep simp from treating these lemmas as mere
unfolding: the kernel, asked to compare two states as such, would run the transforms inside them. -/

namespace Sys2Proof.Machine

section
variable (s : State)

/-! ### putByte -/

@[simp] theorem State.putByte_h (x : Byte) : (s.putByte x).h = s.h := (rfl)
@[simp] theorem State.putByte_buf (x : Byte) : (s.putByte x).buf = s.buf.write s.fill.toNat x := (rfl)
@[simp] theorem State.putByte_count (x : Byte) : (s.putByte x).count = s.count + 1 := (rfl)
@[simp] theorem State.putByte_finalized (x : Byte) : (s.putByte x).finalized = s.finalized := (rfl)
@[simp] theorem State.putByte_errCode (x : Byte) : (s.putByte x).errCode = s.errCode := (rfl)
@[simp] theorem State.putByte_digestH (x : Byte) : (s.putByte x).digestH = s.digestH := (rfl)
@[simp] theorem State.putByte_data (x : Byte) : (s.putByte x).data = s.data := (rfl)
@[simp] theorem State.putByte_hostBe (x : Byte) : (s.putByte x).hostBe = s.hostBe := (rfl)
@[simp] theorem State.putByte_engine (x : Byte) : (s.putByte x).engine = s.engine := (rfl)
@[simp] theorem State.putByte_fin (x : Byte) : (s.putByte x).fin = s.fin := (rfl)
@[simp] theorem State.putByte_activity (x : Byte) : (s.putByte x).activity = s.activity := (rfl)
@[simp] theorem State.putByte_response (x : Byte) : (s.putByte x).response = s.response := (rfl)
@[simp] theorem State.putByte_pending (x : Byte) : (s.putByte x).pending = s.pending := (rfl)
@[simp] theorem State.putByte_faults (x : Byte) : (s.putByte x).faults = s.faults := (rfl)
@[simp] theorem State.putByte_draws (x : Byte) : (s.putByte x).draws = s.draws := (rfl)
@[simp] theorem State.putByte_ingestOperand (x : Byte) (km1 : BitVec 2) : (s.putByte x).ingestOperand km1 = s.ingestOperand km1 := (rfl)
@[simp] theorem State.putByte_digestRead (x : Byte) (k : BitVec 2) : (s.putByte x).digestRead k = s.digestRead k := (rfl)

/-! ### setH -/

@[simp] theorem State.setH_h (h : Hash) : (s.setH h).h = h := (rfl)
@[simp] theorem State.setH_buf (h : Hash) : (s.setH h).buf = s.buf := (rfl)
@[simp] theorem State.setH_count (h : Hash) : (s.setH h).count = s.count := (rfl)
@[simp] theorem State.setH_finalized (h : Hash) : (s.setH h).finalized = s.finalized := (rfl)
@[simp] theorem State.setH_errCode (h : Hash) : (s.setH h).errCode = s.errCode := (rfl)
@[simp] theorem State.setH_digestH (h : Hash) : (s.setH h).digestH = s.digestH := (rfl)
@[simp] theorem State.setH_data (h : Hash) : (s.setH h).data = s.data := (rfl)
@[simp] theorem State.setH_hostBe (h : Hash) : (s.setH h).hostBe = s.hostBe := (rfl)
@[simp] theorem State.setH_engine (h : Hash) : (s.setH h).engine = s.engine := (rfl)
@[simp] theorem State.setH_fin (h : Hash) : (s.setH h).fin = s.fin := (rfl)
@[simp] theorem State.setH_activity (h : Hash) : (s.setH h).activity = s.activity := (rfl)
@[simp] theorem State.setH_response (h : Hash) : (s.setH h).response = s.response := (rfl)
@[simp] theorem State.setH_pending (h : Hash) : (s.setH h).pending = s.pending := (rfl)
@[simp] theorem State.setH_faults (h : Hash) : (s.setH h).faults = s.faults := (rfl)
@[simp] theorem State.setH_draws (h : Hash) : (s.setH h).draws = s.draws := (rfl)
@[simp] theorem State.setH_fill (h : Hash) : (s.setH h).fill = s.fill := (rfl)
@[simp] theorem State.setH_bufByte (h : Hash) (i : Nat) : (s.setH h).bufByte i = s.bufByte i := (rfl)
@[simp] theorem State.setH_bufBlock (h : Hash) : (s.setH h).bufBlock = s.bufBlock := (rfl)
@[simp] theorem State.setH_bitLength (h : Hash) : (s.setH h).bitLength = s.bitLength := (rfl)
@[simp] theorem State.setH_onePadBlock (h : Hash) : (s.setH h).onePadBlock = s.onePadBlock := (rfl)
@[simp] theorem State.setH_lengthBlock (h : Hash) : (s.setH h).lengthBlock = s.lengthBlock := (rfl)
@[simp] theorem State.setH_status (h : Hash) : (s.setH h).status = s.status := (rfl)
@[simp] theorem State.setH_firstPadBlock (h : Hash) : (s.setH h).firstPadBlock = s.firstPadBlock := (rfl)
@[simp] theorem State.setH_ingestOperand (h : Hash) (km1 : BitVec 2) : (s.setH h).ingestOperand km1 = s.ingestOperand km1 := (rfl)
@[simp] theorem State.setH_digestRead (h : Hash) (k : BitVec 2) : (s.setH h).digestRead k = s.digestRead k := (rfl)

/-! ### setData -/

@[simp] theorem State.setData_h (v : Word) : (s.setData v).h = s.h := (rfl)
@[simp] theorem State.setData_buf (v : Word) : (s.setData v).buf = s.buf := (rfl)
@[simp] theorem State.setData_count (v : Word) : (s.setData v).count = s.count := (rfl)
@[simp] theorem State.setData_finalized (v : Word) : (s.setData v).finalized = s.finalized := (rfl)
@[simp] theorem State.setData_errCode (v : Word) : (s.setData v).errCode = s.errCode := (rfl)
@[simp] theorem State.setData_digestH (v : Word) : (s.setData v).digestH = s.digestH := (rfl)
@[simp] theorem State.setData_data (v : Word) : (s.setData v).data = v := (rfl)
@[simp] theorem State.setData_hostBe (v : Word) : (s.setData v).hostBe = s.hostBe := (rfl)
@[simp] theorem State.setData_engine (v : Word) : (s.setData v).engine = s.engine := (rfl)
@[simp] theorem State.setData_fin (v : Word) : (s.setData v).fin = s.fin := (rfl)
@[simp] theorem State.setData_activity (v : Word) : (s.setData v).activity = s.activity := (rfl)
@[simp] theorem State.setData_response (v : Word) : (s.setData v).response = s.response := (rfl)
@[simp] theorem State.setData_pending (v : Word) : (s.setData v).pending = s.pending := (rfl)
@[simp] theorem State.setData_faults (v : Word) : (s.setData v).faults = s.faults := (rfl)
@[simp] theorem State.setData_draws (v : Word) : (s.setData v).draws = s.draws := (rfl)
@[simp] theorem State.setData_fill (v : Word) : (s.setData v).fill = s.fill := (rfl)
@[simp] theorem State.setData_bufByte (v : Word) (i : Nat) : (s.setData v).bufByte i = s.bufByte i := (rfl)
@[simp] theorem State.setData_bufBlock (v : Word) : (s.setData v).bufBlock = s.bufBlock := (rfl)
@[simp] theorem State.setData_bitLength (v : Word) : (s.setData v).bitLength = s.bitLength := (rfl)
@[simp] theorem State.setData_onePadBlock (v : Word) : (s.setData v).onePadBlock = s.onePadBlock := (rfl)
@[simp] theorem State.setData_lengthBlock (v : Word) : (s.setData v).lengthBlock = s.lengthBlock := (rfl)
@[simp] theorem State.setData_status (v : Word) : (s.setData v).status = s.status := (rfl)
@[simp] theorem State.setData_firstPadBlock (v : Word) : (s.setData v).firstPadBlock = s.firstPadBlock := (rfl)
@[simp] theorem State.setData_finalHash (v : Word) : (s.setData v).finalHash = s.finalHash := (rfl)
@[simp] theorem State.setData_digestRead (v : Word) (k : BitVec 2) : (s.setData v).digestRead k = s.digestRead k := (rfl)

/-! ### setDigest -/

@[simp] theorem State.setDigest_h (h : Hash) : (s.setDigest h).h = s.h := (rfl)
@[simp] theorem State.setDigest_buf (h : Hash) : (s.setDigest h).buf = s.buf := (rfl)
@[simp] theorem State.setDigest_count (h : Hash) : (s.setDigest h).count = s.count := (rfl)
@[simp] theorem State.setDigest_finalized (h : Hash) : (s.setDigest h).finalized = true := (rfl)
@[simp] theorem State.setDigest_errCode (h : Hash) : (s.setDigest h).errCode = s.errCode := (rfl)
@[simp] theorem State.setDigest_digestH (h : Hash) : (s.setDigest h).digestH = h := (rfl)
@[simp] theorem State.setDigest_data (h : Hash) : (s.setDigest h).data = s.data := (rfl)
@[simp] theorem State.setDigest_hostBe (h : Hash) : (s.setDigest h).hostBe = s.hostBe := (rfl)
@[simp] theorem State.setDigest_engine (h : Hash) : (s.setDigest h).engine = s.engine := (rfl)
@[simp] theorem State.setDigest_fin (h : Hash) : (s.setDigest h).fin = s.fin := (rfl)
@[simp] theorem State.setDigest_activity (h : Hash) : (s.setDigest h).activity = s.activity := (rfl)
@[simp] theorem State.setDigest_response (h : Hash) : (s.setDigest h).response = s.response := (rfl)
@[simp] theorem State.setDigest_pending (h : Hash) : (s.setDigest h).pending = s.pending := (rfl)
@[simp] theorem State.setDigest_faults (h : Hash) : (s.setDigest h).faults = s.faults := (rfl)
@[simp] theorem State.setDigest_draws (h : Hash) : (s.setDigest h).draws = s.draws := (rfl)
@[simp] theorem State.setDigest_fill (h : Hash) : (s.setDigest h).fill = s.fill := (rfl)
@[simp] theorem State.setDigest_bufByte (h : Hash) (i : Nat) : (s.setDigest h).bufByte i = s.bufByte i := (rfl)
@[simp] theorem State.setDigest_bufBlock (h : Hash) : (s.setDigest h).bufBlock = s.bufBlock := (rfl)
@[simp] theorem State.setDigest_bitLength (h : Hash) : (s.setDigest h).bitLength = s.bitLength := (rfl)
@[simp] theorem State.setDigest_onePadBlock (h : Hash) : (s.setDigest h).onePadBlock = s.onePadBlock := (rfl)
@[simp] theorem State.setDigest_lengthBlock (h : Hash) : (s.setDigest h).lengthBlock = s.lengthBlock := (rfl)
@[simp] theorem State.setDigest_firstPadBlock (h : Hash) : (s.setDigest h).firstPadBlock = s.firstPadBlock := (rfl)
@[simp] theorem State.setDigest_finalHash (h : Hash) : (s.setDigest h).finalHash = s.finalHash := (rfl)
@[simp] theorem State.setDigest_ingestOperand (h : Hash) (km1 : BitVec 2) : (s.setDigest h).ingestOperand km1 = s.ingestOperand km1 := (rfl)

/-! ### respond -/

@[simp] theorem State.respond_h (v : Word) : (s.respond v).h = s.h := (rfl)
@[simp] theorem State.respond_buf (v : Word) : (s.respond v).buf = s.buf := (rfl)
@[simp] theorem State.respond_count (v : Word) : (s.respond v).count = s.count := (rfl)
@[simp] theorem State.respond_finalized (v : Word) : (s.respond v).finalized = s.finalized := (rfl)
@[simp] theorem State.respond_errCode (v : Word) : (s.respond v).errCode = s.errCode := (rfl)
@[simp] theorem State.respond_digestH (v : Word) : (s.respond v).digestH = s.digestH := (rfl)
@[simp] theorem State.respond_data (v : Word) : (s.respond v).data = s.data := (rfl)
@[simp] theorem State.respond_hostBe (v : Word) : (s.respond v).hostBe = s.hostBe := (rfl)
@[simp] theorem State.respond_engine (v : Word) : (s.respond v).engine = s.engine := (rfl)
@[simp] theorem State.respond_fin (v : Word) : (s.respond v).fin = s.fin := (rfl)
@[simp] theorem State.respond_activity (v : Word) : (s.respond v).activity = s.activity := (rfl)
@[simp] theorem State.respond_response (v : Word) : (s.respond v).response = some v := (rfl)
@[simp] theorem State.respond_pending (v : Word) : (s.respond v).pending = s.pending := (rfl)
@[simp] theorem State.respond_faults (v : Word) : (s.respond v).faults = s.faults := (rfl)
@[simp] theorem State.respond_draws (v : Word) : (s.respond v).draws = s.draws := (rfl)
@[simp] theorem State.respond_fill (v : Word) : (s.respond v).fill = s.fill := (rfl)
@[simp] theorem State.respond_bufByte (v : Word) (i : Nat) : (s.respond v).bufByte i = s.bufByte i := (rfl)
@[simp] theorem State.respond_bufBlock (v : Word) : (s.respond v).bufBlock = s.bufBlock := (rfl)
@[simp] theorem State.respond_bitLength (v : Word) : (s.respond v).bitLength = s.bitLength := (rfl)
@[simp] theorem State.respond_onePadBlock (v : Word) : (s.respond v).onePadBlock = s.onePadBlock := (rfl)
@[simp] theorem State.respond_lengthBlock (v : Word) : (s.respond v).lengthBlock = s.lengthBlock := (rfl)
@[simp] theorem State.respond_status (v : Word) : (s.respond v).status = s.status := (rfl)
@[simp] theorem State.respond_firstPadBlock (v : Word) : (s.respond v).firstPadBlock = s.firstPadBlock := (rfl)
@[simp] theorem State.respond_finalHash (v : Word) : (s.respond v).finalHash = s.finalHash := (rfl)
@[simp] theorem State.respond_ingestOperand (v : Word) (km1 : BitVec 2) : (s.respond v).ingestOperand km1 = s.ingestOperand km1 := (rfl)
@[simp] theorem State.respond_digestRead (v : Word) (k : BitVec 2) : (s.respond v).digestRead k = s.digestRead k := (rfl)

/-! ### acknowledge -/

@[simp] theorem State.acknowledge_h : s.acknowledge.h = s.h := (rfl)
@[simp] theorem State.acknowledge_buf : s.acknowledge.buf = s.buf := (rfl)
@[simp] theorem State.acknowledge_count : s.acknowledge.count = s.count := (rfl)
@[simp] theorem State.acknowledge_finalized : s.acknowledge.finalized = s.finalized := (rfl)
@[simp] theorem State.acknowledge_errCode : s.acknowledge.errCode = s.errCode := (rfl)
@[simp] theorem State.acknowledge_digestH : s.acknowledge.digestH = s.digestH := (rfl)
@[simp] theorem State.acknowledge_data : s.acknowledge.data = s.data := (rfl)
@[simp] theorem State.acknowledge_hostBe : s.acknowledge.hostBe = s.hostBe := (rfl)
@[simp] theorem State.acknowledge_engine : s.acknowledge.engine = s.engine := (rfl)
@[simp] theorem State.acknowledge_fin : s.acknowledge.fin = s.fin := (rfl)
@[simp] theorem State.acknowledge_activity : s.acknowledge.activity = s.activity := (rfl)
@[simp] theorem State.acknowledge_response : s.acknowledge.response = none := (rfl)
@[simp] theorem State.acknowledge_pending : s.acknowledge.pending = s.pending := (rfl)
@[simp] theorem State.acknowledge_faults : s.acknowledge.faults = s.faults := (rfl)
@[simp] theorem State.acknowledge_draws : s.acknowledge.draws = s.draws := (rfl)
@[simp] theorem State.acknowledge_fill : s.acknowledge.fill = s.fill := (rfl)
@[simp] theorem State.acknowledge_bufByte (i : Nat) : s.acknowledge.bufByte i = s.bufByte i := (rfl)
@[simp] theorem State.acknowledge_bufBlock : s.acknowledge.bufBlock = s.bufBlock := (rfl)
@[simp] theorem State.acknowledge_bitLength : s.acknowledge.bitLength = s.bitLength := (rfl)
@[simp] theorem State.acknowledge_onePadBlock : s.acknowledge.onePadBlock = s.onePadBlock := (rfl)
@[simp] theorem State.acknowledge_lengthBlock : s.acknowledge.lengthBlock = s.lengthBlock := (rfl)
@[simp] theorem State.acknowledge_status : s.acknowledge.status = s.status := (rfl)
@[simp] theorem State.acknowledge_firstPadBlock : s.acknowledge.firstPadBlock = s.firstPadBlock := (rfl)
@[simp] theorem State.acknowledge_finalHash : s.acknowledge.finalHash = s.finalHash := (rfl)
@[simp] theorem State.acknowledge_ingestOperand (km1 : BitVec 2) : s.acknowledge.ingestOperand km1 = s.ingestOperand km1 := (rfl)
@[simp] theorem State.acknowledge_digestRead (k : BitVec 2) : s.acknowledge.digestRead k = s.digestRead k := (rfl)

/-! ### setEngine -/

@[simp] theorem State.setEngine_h (e : Engine) : (s.setEngine e).h = s.h := (rfl)
@[simp] theorem State.setEngine_buf (e : Engine) : (s.setEngine e).buf = s.buf := (rfl)
@[simp] theorem State.setEngine_count (e : Engine) : (s.setEngine e).count = s.count := (rfl)
@[simp] theorem State.setEngine_finalized (e : Engine) : (s.setEngine e).finalized = s.finalized := (rfl)
@[simp] theorem State.setEngine_errCode (e : Engine) : (s.setEngine e).errCode = s.errCode := (rfl)
@[simp] theorem State.setEngine_digestH (e : Engine) : (s.setEngine e).digestH = s.digestH := (rfl)
@[simp] theorem State.setEngine_data (e : Engine) : (s.setEngine e).data = s.data := (rfl)
@[simp] theorem State.setEngine_hostBe (e : Engine) : (s.setEngine e).hostBe = s.hostBe := (rfl)
@[simp] theorem State.setEngine_engine (e : Engine) : (s.setEngine e).engine = e := (rfl)
@[simp] theorem State.setEngine_fin (e : Engine) : (s.setEngine e).fin = s.fin := (rfl)
@[simp] theorem State.setEngine_activity (e : Engine) : (s.setEngine e).activity = s.activity := (rfl)
@[simp] theorem State.setEngine_response (e : Engine) : (s.setEngine e).response = s.response := (rfl)
@[simp] theorem State.setEngine_pending (e : Engine) : (s.setEngine e).pending = s.pending := (rfl)
@[simp] theorem State.setEngine_faults (e : Engine) : (s.setEngine e).faults = s.faults := (rfl)
@[simp] theorem State.setEngine_draws (e : Engine) : (s.setEngine e).draws = s.draws := (rfl)
@[simp] theorem State.setEngine_fill (e : Engine) : (s.setEngine e).fill = s.fill := (rfl)
@[simp] theorem State.setEngine_bufByte (e : Engine) (i : Nat) : (s.setEngine e).bufByte i = s.bufByte i := (rfl)
@[simp] theorem State.setEngine_bufBlock (e : Engine) : (s.setEngine e).bufBlock = s.bufBlock := (rfl)
@[simp] theorem State.setEngine_bitLength (e : Engine) : (s.setEngine e).bitLength = s.bitLength := (rfl)
@[simp] theorem State.setEngine_onePadBlock (e : Engine) : (s.setEngine e).onePadBlock = s.onePadBlock := (rfl)
@[simp] theorem State.setEngine_lengthBlock (e : Engine) : (s.setEngine e).lengthBlock = s.lengthBlock := (rfl)
@[simp] theorem State.setEngine_status (e : Engine) : (s.setEngine e).status = s.status := (rfl)
@[simp] theorem State.setEngine_firstPadBlock (e : Engine) : (s.setEngine e).firstPadBlock = s.firstPadBlock := (rfl)
@[simp] theorem State.setEngine_finalHash (e : Engine) : (s.setEngine e).finalHash = s.finalHash := (rfl)
@[simp] theorem State.setEngine_ingestOperand (e : Engine) (km1 : BitVec 2) : (s.setEngine e).ingestOperand km1 = s.ingestOperand km1 := (rfl)
@[simp] theorem State.setEngine_digestRead (e : Engine) (k : BitVec 2) : (s.setEngine e).digestRead k = s.digestRead k := (rfl)

/-! ### setFin -/

@[simp] theorem State.setFin_h (c : FinalCopy) : (s.setFin c).h = s.h := (rfl)
@[simp] theorem State.setFin_buf (c : FinalCopy) : (s.setFin c).buf = s.buf := (rfl)
@[simp] theorem State.setFin_count (c : FinalCopy) : (s.setFin c).count = s.count := (rfl)
@[simp] theorem State.setFin_finalized (c : FinalCopy) : (s.setFin c).finalized = s.finalized := (rfl)
@[simp] theorem State.setFin_errCode (c : FinalCopy) : (s.setFin c).errCode = s.errCode := (rfl)
@[simp] theorem State.setFin_digestH (c : FinalCopy) : (s.setFin c).digestH = s.digestH := (rfl)
@[simp] theorem State.setFin_data (c : FinalCopy) : (s.setFin c).data = s.data := (rfl)
@[simp] theorem State.setFin_hostBe (c : FinalCopy) : (s.setFin c).hostBe = s.hostBe := (rfl)
@[simp] theorem State.setFin_engine (c : FinalCopy) : (s.setFin c).engine = s.engine := (rfl)
@[simp] theorem State.setFin_fin (c : FinalCopy) : (s.setFin c).fin = c := (rfl)
@[simp] theorem State.setFin_activity (c : FinalCopy) : (s.setFin c).activity = s.activity := (rfl)
@[simp] theorem State.setFin_response (c : FinalCopy) : (s.setFin c).response = s.response := (rfl)
@[simp] theorem State.setFin_pending (c : FinalCopy) : (s.setFin c).pending = s.pending := (rfl)
@[simp] theorem State.setFin_faults (c : FinalCopy) : (s.setFin c).faults = s.faults := (rfl)
@[simp] theorem State.setFin_draws (c : FinalCopy) : (s.setFin c).draws = s.draws := (rfl)
@[simp] theorem State.setFin_fill (c : FinalCopy) : (s.setFin c).fill = s.fill := (rfl)
@[simp] theorem State.setFin_bufByte (c : FinalCopy) (i : Nat) : (s.setFin c).bufByte i = s.bufByte i := (rfl)
@[simp] theorem State.setFin_bufBlock (c : FinalCopy) : (s.setFin c).bufBlock = s.bufBlock := (rfl)
@[simp] theorem State.setFin_bitLength (c : FinalCopy) : (s.setFin c).bitLength = s.bitLength := (rfl)
@[simp] theorem State.setFin_onePadBlock (c : FinalCopy) : (s.setFin c).onePadBlock = s.onePadBlock := (rfl)
@[simp] theorem State.setFin_lengthBlock (c : FinalCopy) : (s.setFin c).lengthBlock = s.lengthBlock := (rfl)
@[simp] theorem State.setFin_status (c : FinalCopy) : (s.setFin c).status = s.status := (rfl)
@[simp] theorem State.setFin_firstPadBlock (c : FinalCopy) : (s.setFin c).firstPadBlock = s.firstPadBlock := (rfl)
@[simp] theorem State.setFin_finalHash (c : FinalCopy) : (s.setFin c).finalHash = s.finalHash := (rfl)
@[simp] theorem State.setFin_ingestOperand (c : FinalCopy) (km1 : BitVec 2) : (s.setFin c).ingestOperand km1 = s.ingestOperand km1 := (rfl)
@[simp] theorem State.setFin_digestRead (c : FinalCopy) (k : BitVec 2) : (s.setFin c).digestRead k = s.digestRead k := (rfl)

/-! ### setActivity -/

@[simp] theorem State.setActivity_h (a : Activity) : (s.setActivity a).h = s.h := (rfl)
@[simp] theorem State.setActivity_buf (a : Activity) : (s.setActivity a).buf = s.buf := (rfl)
@[simp] theorem State.setActivity_count (a : Activity) : (s.setActivity a).count = s.count := (rfl)
@[simp] theorem State.setActivity_finalized (a : Activity) : (s.setActivity a).finalized = s.finalized := (rfl)
@[simp] theorem State.setActivity_errCode (a : Activity) : (s.setActivity a).errCode = s.errCode := (rfl)
@[simp] theorem State.setActivity_digestH (a : Activity) : (s.setActivity a).digestH = s.digestH := (rfl)
@[simp] theorem State.setActivity_data (a : Activity) : (s.setActivity a).data = s.data := (rfl)
@[simp] theorem State.setActivity_hostBe (a : Activity) : (s.setActivity a).hostBe = s.hostBe := (rfl)
@[simp] theorem State.setActivity_engine (a : Activity) : (s.setActivity a).engine = s.engine := (rfl)
@[simp] theorem State.setActivity_fin (a : Activity) : (s.setActivity a).fin = s.fin := (rfl)
@[simp] theorem State.setActivity_activity (a : Activity) : (s.setActivity a).activity = a := (rfl)
@[simp] theorem State.setActivity_response (a : Activity) : (s.setActivity a).response = s.response := (rfl)
@[simp] theorem State.setActivity_pending (a : Activity) : (s.setActivity a).pending = s.pending := (rfl)
@[simp] theorem State.setActivity_faults (a : Activity) : (s.setActivity a).faults = s.faults := (rfl)
@[simp] theorem State.setActivity_draws (a : Activity) : (s.setActivity a).draws = s.draws := (rfl)
@[simp] theorem State.setActivity_fill (a : Activity) : (s.setActivity a).fill = s.fill := (rfl)
@[simp] theorem State.setActivity_bufByte (a : Activity) (i : Nat) : (s.setActivity a).bufByte i = s.bufByte i := (rfl)
@[simp] theorem State.setActivity_bufBlock (a : Activity) : (s.setActivity a).bufBlock = s.bufBlock := (rfl)
@[simp] theorem State.setActivity_bitLength (a : Activity) : (s.setActivity a).bitLength = s.bitLength := (rfl)
@[simp] theorem State.setActivity_onePadBlock (a : Activity) : (s.setActivity a).onePadBlock = s.onePadBlock := (rfl)
@[simp] theorem State.setActivity_lengthBlock (a : Activity) : (s.setActivity a).lengthBlock = s.lengthBlock := (rfl)
@[simp] theorem State.setActivity_status (a : Activity) : (s.setActivity a).status = s.status := (rfl)
@[simp] theorem State.setActivity_firstPadBlock (a : Activity) : (s.setActivity a).firstPadBlock = s.firstPadBlock := (rfl)
@[simp] theorem State.setActivity_finalHash (a : Activity) : (s.setActivity a).finalHash = s.finalHash := (rfl)
@[simp] theorem State.setActivity_ingestOperand (a : Activity) (km1 : BitVec 2) : (s.setActivity a).ingestOperand km1 = s.ingestOperand km1 := (rfl)
@[simp] theorem State.setActivity_digestRead (a : Activity) (k : BitVec 2) : (s.setActivity a).digestRead k = s.digestRead k := (rfl)

/-! ### setPending -/

@[simp] theorem State.setPending_h (q : List Stimulus) : (s.setPending q).h = s.h := (rfl)
@[simp] theorem State.setPending_buf (q : List Stimulus) : (s.setPending q).buf = s.buf := (rfl)
@[simp] theorem State.setPending_count (q : List Stimulus) : (s.setPending q).count = s.count := (rfl)
@[simp] theorem State.setPending_finalized (q : List Stimulus) : (s.setPending q).finalized = s.finalized := (rfl)
@[simp] theorem State.setPending_errCode (q : List Stimulus) : (s.setPending q).errCode = s.errCode := (rfl)
@[simp] theorem State.setPending_digestH (q : List Stimulus) : (s.setPending q).digestH = s.digestH := (rfl)
@[simp] theorem State.setPending_data (q : List Stimulus) : (s.setPending q).data = s.data := (rfl)
@[simp] theorem State.setPending_hostBe (q : List Stimulus) : (s.setPending q).hostBe = s.hostBe := (rfl)
@[simp] theorem State.setPending_engine (q : List Stimulus) : (s.setPending q).engine = s.engine := (rfl)
@[simp] theorem State.setPending_fin (q : List Stimulus) : (s.setPending q).fin = s.fin := (rfl)
@[simp] theorem State.setPending_activity (q : List Stimulus) : (s.setPending q).activity = s.activity := (rfl)
@[simp] theorem State.setPending_response (q : List Stimulus) : (s.setPending q).response = s.response := (rfl)
@[simp] theorem State.setPending_pending (q : List Stimulus) : (s.setPending q).pending = q := (rfl)
@[simp] theorem State.setPending_faults (q : List Stimulus) : (s.setPending q).faults = s.faults := (rfl)
@[simp] theorem State.setPending_draws (q : List Stimulus) : (s.setPending q).draws = s.draws := (rfl)
@[simp] theorem State.setPending_fill (q : List Stimulus) : (s.setPending q).fill = s.fill := (rfl)
@[simp] theorem State.setPending_bufByte (q : List Stimulus) (i : Nat) : (s.setPending q).bufByte i = s.bufByte i := (rfl)
@[simp] theorem State.setPending_bufBlock (q : List Stimulus) : (s.setPending q).bufBlock = s.bufBlock := (rfl)
@[simp] theorem State.setPending_bitLength (q : List Stimulus) : (s.setPending q).bitLength = s.bitLength := (rfl)
@[simp] theorem State.setPending_onePadBlock (q : List Stimulus) : (s.setPending q).onePadBlock = s.onePadBlock := (rfl)
@[simp] theorem State.setPending_lengthBlock (q : List Stimulus) : (s.setPending q).lengthBlock = s.lengthBlock := (rfl)
@[simp] theorem State.setPending_status (q : List Stimulus) : (s.setPending q).status = s.status := (rfl)
@[simp] theorem State.setPending_firstPadBlock (q : List Stimulus) : (s.setPending q).firstPadBlock = s.firstPadBlock := (rfl)
@[simp] theorem State.setPending_finalHash (q : List Stimulus) : (s.setPending q).finalHash = s.finalHash := (rfl)
@[simp] theorem State.setPending_ingestOperand (q : List Stimulus) (km1 : BitVec 2) : (s.setPending q).ingestOperand km1 = s.ingestOperand km1 := (rfl)
@[simp] theorem State.setPending_digestRead (q : List Stimulus) (k : BitVec 2) : (s.setPending q).digestRead k = s.digestRead k := (rfl)

/-! ### startNew -/

@[simp] theorem State.startNew_h : s.startNew.h = initialHash := (rfl)
@[simp] theorem State.startNew_buf : s.startNew.buf = s.buf := (rfl)
@[simp] theorem State.startNew_count : s.startNew.count = 0 := (rfl)
@[simp] theorem State.startNew_finalized : s.startNew.finalized = false := (rfl)
@[simp] theorem State.startNew_errCode : s.startNew.errCode = 0 := (rfl)
@[simp] theorem State.startNew_digestH : s.startNew.digestH = s.digestH := (rfl)
@[simp] theorem State.startNew_data : s.startNew.data = s.data := (rfl)
@[simp] theorem State.startNew_hostBe : s.startNew.hostBe = s.hostBe := (rfl)
@[simp] theorem State.startNew_engine : s.startNew.engine = s.engine := (rfl)
@[simp] theorem State.startNew_fin : s.startNew.fin = s.fin := (rfl)
@[simp] theorem State.startNew_activity : s.startNew.activity = s.activity := (rfl)
@[simp] theorem State.startNew_response : s.startNew.response = s.response := (rfl)
@[simp] theorem State.startNew_pending : s.startNew.pending = s.pending := (rfl)
@[simp] theorem State.startNew_faults : s.startNew.faults = s.faults := (rfl)
@[simp] theorem State.startNew_draws : s.startNew.draws = s.draws := (rfl)
@[simp] theorem State.startNew_bufByte (i : Nat) : s.startNew.bufByte i = s.bufByte i := (rfl)
@[simp] theorem State.startNew_bufBlock : s.startNew.bufBlock = s.bufBlock := (rfl)
@[simp] theorem State.startNew_ingestOperand (km1 : BitVec 2) : s.startNew.ingestOperand km1 = s.ingestOperand km1 := (rfl)

/-! ### releaseEngine -/

@[simp] theorem State.releaseEngine_h : s.releaseEngine.h = s.h := (rfl)
@[simp] theorem State.releaseEngine_buf : s.releaseEngine.buf = s.buf := (rfl)
@[simp] theorem State.releaseEngine_count : s.releaseEngine.count = s.count := (rfl)
@[simp] theorem State.releaseEngine_finalized : s.releaseEngine.finalized = s.finalized := (rfl)
@[simp] theorem State.releaseEngine_errCode : s.releaseEngine.errCode = s.errCode := (rfl)
@[simp] theorem State.releaseEngine_digestH : s.releaseEngine.digestH = s.digestH := (rfl)
@[simp] theorem State.releaseEngine_data : s.releaseEngine.data = s.data := (rfl)
@[simp] theorem State.releaseEngine_hostBe : s.releaseEngine.hostBe = s.hostBe := (rfl)
@[simp] theorem State.releaseEngine_engine : s.releaseEngine.engine = Engine.free s.draws := (rfl)
@[simp] theorem State.releaseEngine_fin : s.releaseEngine.fin = s.fin := (rfl)
@[simp] theorem State.releaseEngine_activity : s.releaseEngine.activity = s.activity := (rfl)
@[simp] theorem State.releaseEngine_response : s.releaseEngine.response = s.response := (rfl)
@[simp] theorem State.releaseEngine_pending : s.releaseEngine.pending = s.pending := (rfl)
@[simp] theorem State.releaseEngine_faults : s.releaseEngine.faults = s.faults := (rfl)
@[simp] theorem State.releaseEngine_draws : s.releaseEngine.draws = s.draws + drawStride := (rfl)
@[simp] theorem State.releaseEngine_fill : s.releaseEngine.fill = s.fill := (rfl)
@[simp] theorem State.releaseEngine_bufByte (i : Nat) : s.releaseEngine.bufByte i = s.bufByte i := (rfl)
@[simp] theorem State.releaseEngine_bufBlock : s.releaseEngine.bufBlock = s.bufBlock := (rfl)
@[simp] theorem State.releaseEngine_bitLength : s.releaseEngine.bitLength = s.bitLength := (rfl)
@[simp] theorem State.releaseEngine_onePadBlock : s.releaseEngine.onePadBlock = s.onePadBlock := (rfl)
@[simp] theorem State.releaseEngine_lengthBlock : s.releaseEngine.lengthBlock = s.lengthBlock := (rfl)
@[simp] theorem State.releaseEngine_status : s.releaseEngine.status = s.status := (rfl)
@[simp] theorem State.releaseEngine_firstPadBlock : s.releaseEngine.firstPadBlock = s.firstPadBlock := (rfl)
@[simp] theorem State.releaseEngine_finalHash : s.releaseEngine.finalHash = s.finalHash := (rfl)
@[simp] theorem State.releaseEngine_ingestOperand (km1 : BitVec 2) : s.releaseEngine.ingestOperand km1 = s.ingestOperand km1 := (rfl)
@[simp] theorem State.releaseEngine_digestRead (k : BitVec 2) : s.releaseEngine.digestRead k = s.digestRead k := (rfl)

/-! ### releaseInternals -/

@[simp] theorem State.releaseInternals_h : s.releaseInternals.h = s.h := (rfl)
@[simp] theorem State.releaseInternals_buf : s.releaseInternals.buf = s.buf := (rfl)
@[simp] theorem State.releaseInternals_count : s.releaseInternals.count = s.count := (rfl)
@[simp] theorem State.releaseInternals_finalized : s.releaseInternals.finalized = s.finalized := (rfl)
@[simp] theorem State.releaseInternals_errCode : s.releaseInternals.errCode = s.errCode := (rfl)
@[simp] theorem State.releaseInternals_digestH : s.releaseInternals.digestH = s.digestH := (rfl)
@[simp] theorem State.releaseInternals_data : s.releaseInternals.data = s.data := (rfl)
@[simp] theorem State.releaseInternals_hostBe : s.releaseInternals.hostBe = s.hostBe := (rfl)
@[simp] theorem State.releaseInternals_engine : s.releaseInternals.engine = Engine.free s.draws := (rfl)
@[simp] theorem State.releaseInternals_fin : s.releaseInternals.fin = FinalCopy.free (s.draws + drawStride) := (rfl)
@[simp] theorem State.releaseInternals_activity : s.releaseInternals.activity = s.activity := (rfl)
@[simp] theorem State.releaseInternals_response : s.releaseInternals.response = s.response := (rfl)
@[simp] theorem State.releaseInternals_pending : s.releaseInternals.pending = s.pending := (rfl)
@[simp] theorem State.releaseInternals_faults : s.releaseInternals.faults = s.faults := (rfl)
@[simp] theorem State.releaseInternals_draws : s.releaseInternals.draws = s.draws + 2 * drawStride := (rfl)
@[simp] theorem State.releaseInternals_fill : s.releaseInternals.fill = s.fill := (rfl)
@[simp] theorem State.releaseInternals_bufByte (i : Nat) : s.releaseInternals.bufByte i = s.bufByte i := (rfl)
@[simp] theorem State.releaseInternals_bufBlock : s.releaseInternals.bufBlock = s.bufBlock := (rfl)
@[simp] theorem State.releaseInternals_bitLength : s.releaseInternals.bitLength = s.bitLength := (rfl)
@[simp] theorem State.releaseInternals_onePadBlock : s.releaseInternals.onePadBlock = s.onePadBlock := (rfl)
@[simp] theorem State.releaseInternals_lengthBlock : s.releaseInternals.lengthBlock = s.lengthBlock := (rfl)
@[simp] theorem State.releaseInternals_status : s.releaseInternals.status = s.status := (rfl)
@[simp] theorem State.releaseInternals_firstPadBlock : s.releaseInternals.firstPadBlock = s.firstPadBlock := (rfl)
@[simp] theorem State.releaseInternals_finalHash : s.releaseInternals.finalHash = s.finalHash := (rfl)
@[simp] theorem State.releaseInternals_ingestOperand (km1 : BitVec 2) : s.releaseInternals.ingestOperand km1 = s.ingestOperand km1 := (rfl)
@[simp] theorem State.releaseInternals_digestRead (k : BitVec 2) : s.releaseInternals.digestRead k = s.digestRead k := (rfl)

/-! ### raiseUsageError -/

@[simp] theorem State.raiseUsageError_h (e : UsageError) : (s.raiseUsageError e).h = s.h := (rfl)
@[simp] theorem State.raiseUsageError_buf (e : UsageError) : (s.raiseUsageError e).buf = s.buf := (rfl)
@[simp] theorem State.raiseUsageError_count (e : UsageError) : (s.raiseUsageError e).count = s.count := (rfl)
@[simp] theorem State.raiseUsageError_finalized (e : UsageError) : (s.raiseUsageError e).finalized = s.finalized := (rfl)
@[simp] theorem State.raiseUsageError_errCode (e : UsageError) : (s.raiseUsageError e).errCode = if s.errCode = 0 then e.code else s.errCode := (rfl)
@[simp] theorem State.raiseUsageError_digestH (e : UsageError) : (s.raiseUsageError e).digestH = s.digestH := (rfl)
@[simp] theorem State.raiseUsageError_data (e : UsageError) : (s.raiseUsageError e).data = s.data := (rfl)
@[simp] theorem State.raiseUsageError_hostBe (e : UsageError) : (s.raiseUsageError e).hostBe = s.hostBe := (rfl)
@[simp] theorem State.raiseUsageError_engine (e : UsageError) : (s.raiseUsageError e).engine = s.engine := (rfl)
@[simp] theorem State.raiseUsageError_fin (e : UsageError) : (s.raiseUsageError e).fin = s.fin := (rfl)
@[simp] theorem State.raiseUsageError_activity (e : UsageError) : (s.raiseUsageError e).activity = s.activity := (rfl)
@[simp] theorem State.raiseUsageError_response (e : UsageError) : (s.raiseUsageError e).response = s.response := (rfl)
@[simp] theorem State.raiseUsageError_pending (e : UsageError) : (s.raiseUsageError e).pending = s.pending := (rfl)
@[simp] theorem State.raiseUsageError_faults (e : UsageError) : (s.raiseUsageError e).faults = s.faults ++ [⟨e, s.errCode == 0⟩] := (rfl)
@[simp] theorem State.raiseUsageError_draws (e : UsageError) : (s.raiseUsageError e).draws = s.draws := (rfl)
@[simp] theorem State.raiseUsageError_fill (e : UsageError) : (s.raiseUsageError e).fill = s.fill := (rfl)
@[simp] theorem State.raiseUsageError_bufByte (e : UsageError) (i : Nat) : (s.raiseUsageError e).bufByte i = s.bufByte i := (rfl)
@[simp] theorem State.raiseUsageError_bufBlock (e : UsageError) : (s.raiseUsageError e).bufBlock = s.bufBlock := (rfl)
@[simp] theorem State.raiseUsageError_bitLength (e : UsageError) : (s.raiseUsageError e).bitLength = s.bitLength := (rfl)
@[simp] theorem State.raiseUsageError_onePadBlock (e : UsageError) : (s.raiseUsageError e).onePadBlock = s.onePadBlock := (rfl)
@[simp] theorem State.raiseUsageError_lengthBlock (e : UsageError) : (s.raiseUsageError e).lengthBlock = s.lengthBlock := (rfl)
@[simp] theorem State.raiseUsageError_firstPadBlock (e : UsageError) : (s.raiseUsageError e).firstPadBlock = s.firstPadBlock := (rfl)
@[simp] theorem State.raiseUsageError_finalHash (e : UsageError) : (s.raiseUsageError e).finalHash = s.finalHash := (rfl)
@[simp] theorem State.raiseUsageError_ingestOperand (e : UsageError) (km1 : BitVec 2) : (s.raiseUsageError e).ingestOperand km1 = s.ingestOperand km1 := (rfl)
@[simp] theorem State.raiseUsageError_digestRead (e : UsageError) (k : BitVec 2) : (s.raiseUsageError e).digestRead k = s.digestRead k := (rfl)

/-! ### resetBy -/

@[simp] theorem State.resetBy_h (strap : Bool) : (s.resetBy strap).h = initialHash := (rfl)
@[simp] theorem State.resetBy_buf (strap : Bool) : (s.resetBy strap).buf = [] := (rfl)
@[simp] theorem State.resetBy_count (strap : Bool) : (s.resetBy strap).count = 0 := (rfl)
@[simp] theorem State.resetBy_finalized (strap : Bool) : (s.resetBy strap).finalized = false := (rfl)
@[simp] theorem State.resetBy_errCode (strap : Bool) : (s.resetBy strap).errCode = 0 := (rfl)
@[simp] theorem State.resetBy_digestH (strap : Bool) : (s.resetBy strap).digestH = ⟨0, 0, 0, 0⟩ := (rfl)
@[simp] theorem State.resetBy_data (strap : Bool) : (s.resetBy strap).data = 0x00000000 := (rfl)
@[simp] theorem State.resetBy_hostBe (strap : Bool) : (s.resetBy strap).hostBe = strap := (rfl)
@[simp] theorem State.resetBy_engine (strap : Bool) : (s.resetBy strap).engine = Engine.zero := (rfl)
@[simp] theorem State.resetBy_fin (strap : Bool) : (s.resetBy strap).fin = FinalCopy.zero := (rfl)
@[simp] theorem State.resetBy_activity (strap : Bool) : (s.resetBy strap).activity = .idle := (rfl)
@[simp] theorem State.resetBy_response (strap : Bool) : (s.resetBy strap).response = none := (rfl)
@[simp] theorem State.resetBy_pending (strap : Bool) : (s.resetBy strap).pending = s.pending := (rfl)
@[simp] theorem State.resetBy_faults (strap : Bool) : (s.resetBy strap).faults = s.faults := (rfl)
@[simp] theorem State.resetBy_draws (strap : Bool) : (s.resetBy strap).draws = s.draws := (rfl)

end

end Sys2Proof.Machine
end

