-- ==== Sys2Proof/Laws/Command.lean ====
section
/-! SUPPORT. What ingestion does to each field, and all that `exec` can do, said once. -/

namespace Sys2Proof.Machine

/-! ### ingest_byte -/

section
variable (s : State) (x : Byte)

/-- Short of the end of the block, nothing but BUF[FILL] and COUNT changes. -/
theorem State.ingestByte_of_room (h : s.fill ≠ 63) : s.ingestByte x = s.putByte x := if_neg h

/-- The byte that fills BUF runs the transform. -/
theorem State.ingestByte_of_full (h : s.fill = 63) : s.ingestByte x =
    (s.putByte x).releaseEngine.setH (transform s.h (words (s.putByte x).bufBlock)) := if_pos h

theorem State.ingestByte_cases : s.ingestByte x = s.putByte x ∨ s.ingestByte x =
    (s.putByte x).releaseEngine.setH (transform s.h (words (s.putByte x).bufBlock)) := by
  by_cases h : s.fill = 63
  · exact .inr (s.ingestByte_of_full x h)
  · exact .inl (s.ingestByte_of_room x h)

@[simp] theorem State.ingestByte_buf : (s.ingestByte x).buf = s.buf.write s.fill.toNat x := by
  rcases s.ingestByte_cases x with h | h <;> rw [h] <;>
    simp only [State.putByte_buf, State.releaseEngine_buf, State.setH_buf]
@[simp] theorem State.ingestByte_count : (s.ingestByte x).count = s.count + 1 := by
  rcases s.ingestByte_cases x with h | h <;> rw [h] <;>
    simp only [State.putByte_count, State.releaseEngine_count, State.setH_count]
@[simp] theorem State.ingestByte_finalized : (s.ingestByte x).finalized = s.finalized := by
  rcases s.ingestByte_cases x with h | h <;> rw [h] <;>
    simp only [State.putByte_finalized, State.releaseEngine_finalized, State.setH_finalized]
@[simp] theorem State.ingestByte_errCode : (s.ingestByte x).errCode = s.errCode := by
  rcases s.ingestByte_cases x with h | h <;> rw [h] <;>
    simp only [State.putByte_errCode, State.releaseEngine_errCode, State.setH_errCode]
@[simp] theorem State.ingestByte_digestH : (s.ingestByte x).digestH = s.digestH := by
  rcases s.ingestByte_cases x with h | h <;> rw [h] <;>
    simp only [State.putByte_digestH, State.releaseEngine_digestH, State.setH_digestH]
@[simp] theorem State.ingestByte_data : (s.ingestByte x).data = s.data := by
  rcases s.ingestByte_cases x with h | h <;> rw [h] <;>
    simp only [State.putByte_data, State.releaseEngine_data, State.setH_data]
@[simp] theorem State.ingestByte_hostBe : (s.ingestByte x).hostBe = s.hostBe := by
  rcases s.ingestByte_cases x with h | h <;> rw [h] <;>
    simp only [State.putByte_hostBe, State.releaseEngine_hostBe, State.setH_hostBe]
@[simp] theorem State.ingestByte_fin : (s.ingestByte x).fin = s.fin := by
  rcases s.ingestByte_cases x with h | h <;> rw [h] <;>
    simp only [State.putByte_fin, State.releaseEngine_fin, State.setH_fin]
@[simp] theorem State.ingestByte_activity : (s.ingestByte x).activity = s.activity := by
  rcases s.ingestByte_cases x with h | h <;> rw [h] <;>
    simp only [State.putByte_activity, State.releaseEngine_activity, State.setH_activity]
@[simp] theorem State.ingestByte_response : (s.ingestByte x).response = s.response := by
  rcases s.ingestByte_cases x with h | h <;> rw [h] <;>
    simp only [State.putByte_response, State.releaseEngine_response, State.setH_response]
@[simp] theorem State.ingestByte_pending : (s.ingestByte x).pending = s.pending := by
  rcases s.ingestByte_cases x with h | h <;> rw [h] <;>
    simp only [State.putByte_pending, State.releaseEngine_pending, State.setH_pending]
@[simp] theorem State.ingestByte_faults : (s.ingestByte x).faults = s.faults := by
  rcases s.ingestByte_cases x with h | h <;> rw [h] <;>
    simp only [State.putByte_faults, State.releaseEngine_faults, State.setH_faults]

end

/-- FILL is COUNT modulo 64 (rule R23). -/
theorem State.fill_toNat (s : State) : s.fill.toNat = s.count.toNat % 64 := by
  unfold State.fill
  rw [BitVec.extractLsb'_toNat, Nat.shiftRight_zero]

theorem State.fill_lt (s : State) : s.fill.toNat < 64 := s.fill.isLt

/-- Each byte moves FILL on by one, modulo 64. -/
theorem State.ingestByte_fill (s : State) (x : Byte) : (s.ingestByte x).fill.toNat = (s.fill.toNat + 1) % 64 := by
  rw [State.fill_toNat, State.fill_toNat, State.ingestByte_count]
  have := s.count.isLt
  rw [BitVec.toNat_add, show (1 : BitVec 64).toNat = 1 from rfl]
  omega

/-- A byte of BUF after one more is ingested. -/
theorem State.ingestByte_bufByte {s : State} (h : s.buf.wf = true) (x : Byte) (a : Nat) :
    (s.ingestByte x).bufByte a = if a = s.fill.toNat then x else s.bufByte a := by
  unfold State.bufByte
  rw [State.ingestByte_buf]
  exact Memory.read_write h _ _ _

theorem State.ingestByte_wf {s : State} (h : s.buf.wf = true) (x : Byte) : (s.ingestByte x).buf.wf = true := by
  rw [State.ingestByte_buf]
  exact Memory.wf_write h s.fill_lt x

/-! ### A sequence of bytes -/

@[simp] theorem State.ingestBytes_nil (s : State) : s.ingestBytes [] = s := rfl

@[simp] theorem State.ingestBytes_cons (s : State) (b : Byte) (bs : List Byte) :
    s.ingestBytes (b :: bs) = (s.ingestByte b).ingestBytes bs := rfl

/-- Chunks ingested one after the other are their concatenation ingested (rules R152, R153). -/
theorem State.ingestBytes_append (s : State) (bs cs : List Byte) :
    s.ingestBytes (bs ++ cs) = (s.ingestBytes bs).ingestBytes cs := List.foldl_append

/-- Whatever single bytes keep, a sequence keeps. -/
theorem State.ingestBytes_induction {P : State → Prop} (step : ∀ s b, P s → P (s.ingestByte b)) (s : State)
    (bs : List Byte) (h : P s) : P (s.ingestBytes bs) := by
  induction bs generalizing s with
  | nil => exact h
  | cons b bs ih => exact ih _ (step s b h)

/-- The fields no ingestion touches. -/
theorem State.ingestBytes_frame (s : State) (bs : List Byte) :
    s.ingestBytes bs = { s with h := (s.ingestBytes bs).h, buf := (s.ingestBytes bs).buf,
                                count := (s.ingestBytes bs).count, engine := (s.ingestBytes bs).engine,
                                draws := (s.ingestBytes bs).draws } := by
  induction bs generalizing s with
  | nil => rfl
  | cons b bs ih =>
    have h := ih (s.ingestByte b)
    rw [State.ingestBytes_cons]
    generalize (s.ingestByte b).ingestBytes bs = t at h ⊢
    rw [h]
    simp only [State.ingestByte_finalized, State.ingestByte_errCode, State.ingestByte_digestH,
      State.ingestByte_data, State.ingestByte_hostBe, State.ingestByte_fin, State.ingestByte_activity,
      State.ingestByte_response, State.ingestByte_pending, State.ingestByte_faults]

theorem State.ingestBytes_wf {s : State} (h : s.buf.wf = true) (bs : List Byte) :
    (s.ingestBytes bs).buf.wf = true :=
  State.ingestBytes_induction (P := fun t => t.buf.wf = true) (fun _ b ht => State.ingestByte_wf ht b) s bs h

/-! ### H and the pending bytes -/

/-- Short of the end of the block H is kept. -/
theorem State.ingestBytes_h_of_room (s : State) (bs : List Byte) (h : s.fill.toNat + bs.length < 64) :
    (s.ingestBytes bs).h = s.h := by
  induction bs generalizing s with
  | nil => rfl
  | cons b bs ih =>
    rw [List.length_cons] at h
    have hf : s.fill ≠ 63 := by
      intro hc
      have : s.fill.toNat = 63 := by rw [hc]; rfl
      omega
    rw [State.ingestBytes_cons, ih, State.ingestByte_of_room s b hf]
    · exact State.putByte_h ..
    · rw [State.ingestByte_fill]; omega

/-- A byte short of the end of the block joins the pending bytes (rule R23). -/
theorem State.ingestByte_pendingBytes {s : State} (hw : s.buf.wf = true) (b : Byte) (hf : s.fill.toNat ≠ 63) :
    (s.ingestByte b).pendingBytes = s.pendingBytes ++ [b] := by
  have hl := s.fill_lt
  unfold State.pendingBytes
  rw [State.ingestByte_fill, Nat.mod_eq_of_lt (by omega), List.range_succ, List.map_append, List.map_singleton,
    State.ingestByte_bufByte hw, if_pos rfl]
  congr 1
  apply List.map_congr_left
  intro a ha
  rw [List.mem_range] at ha
  rw [State.ingestByte_bufByte hw, if_neg (by omega)]

/-! ### exec -/

/-- WR_CMD runs its command after the port has completed the write (rule R176). -/
theorem exec_wrCmd (w : Word) (s : State) : exec (.wrCmd w) s = exec (decodeCmd w) s.acknowledge := by
  have h := caseCmd_map (fun i => exec i s.acknowledge) w Instr.nop Instr.init Instr.ingestByte Instr.ingestWord
    Instr.finalize (Instr.illegal w)
  exact h.symm

/-- The effects an instruction can have, on a state u: all of them. -/
inductive Effect (i : Instr) (u : State) : State → Prop where
  | nothing : Effect i u u
  | init : i.command = .init → Effect i u u.startNew
  | ingest : (∃ b, i.command = .ingestByte b) ∨ (∃ k, i.command = .ingestWord k) →
      Effect i u (u.ingestOrReject (u.fedBy i))
  | finalize : i.command = .finalize → Effect i u (u.releaseInternals.setDigest u.finalHash)
  | illegal (w : Word) : i.command = .illegal w → Effect i u (u.raiseUsageError .illegalCommand)
  | data (v : Word) : i = .wrData v → Effect i u (u.setData v)
  | read (v : Word) : i.isRead = true → Effect i u (u.respond v)
  | round (e : Engine) : Effect i u (u.setEngine e)

/-- A command, performed in u. -/
theorem exec_decodeCmd_effect (w : Word) (u t : State) (h : exec (decodeCmd w) u = .next t) :
    Effect (.wrCmd w) u t := by
  have hd : (Instr.wrCmd w).command = decodeCmd w := rfl
  revert h hd
  unfold decodeCmd
  refine caseCmd_induction (P := fun i => exec i u = .next t → (Instr.wrCmd w).command = i → Effect (.wrCmd w) u t)
    w ?_ ?_ ?_ ?_ ?_ ?_
  · intro h _; cases h; exact .nothing
  · intro h hd; cases h; exact .init hd
  · intro b h hd; cases h
    have : u.fedBy (.wrCmd w) = [b] := by unfold State.fedBy; rw [hd]
    rw [← this]; exact .ingest (.inl ⟨b, hd⟩)
  · intro k h hd; cases h
    have : u.fedBy (.wrCmd w) = u.ingestOperand k := by unfold State.fedBy; rw [hd]
    rw [← this]; exact .ingest (.inr ⟨k, hd⟩)
  · intro h hd; cases h; exact .finalize hd
  · intro h hd; cases h; exact .illegal w hd

/-- All that an instruction can do: one effect, on s or on s with the port's write completed. -/
theorem exec_effect {i : Instr} {s t : State} (h : exec i s = .next t) :
    ∃ u, (u = s ∨ u = s.acknowledge) ∧ Effect i u t := by
  cases i with
  | nop => cases h; exact ⟨s, .inl rfl, .nothing⟩
  | init => cases h; exact ⟨s, .inl rfl, .init rfl⟩
  | ingestByte b => cases h; exact ⟨s, .inl rfl, .ingest (.inl ⟨b, rfl⟩)⟩
  | ingestWord k => cases h; exact ⟨s, .inl rfl, .ingest (.inr ⟨k, rfl⟩)⟩
  | finalize => cases h; exact ⟨s, .inl rfl, .finalize rfl⟩
  | illegal w => cases h; exact ⟨s, .inl rfl, .illegal w rfl⟩
  | rdCmd => cases h; exact ⟨s, .inl rfl, .read _ rfl⟩
  | wrCmd w => rw [exec_wrCmd] at h; exact ⟨_, .inr rfl, exec_decodeCmd_effect w _ t h⟩
  | rdData => cases h; exact ⟨s, .inl rfl, .read _ rfl⟩
  | wrData v => cases h; exact ⟨_, .inr rfl, .data v rfl⟩
  | rdStatus => cases h; exact ⟨s, .inl rfl, .read _ rfl⟩
  | rdDigest k => cases h; exact ⟨s, .inl rfl, .read _ rfl⟩
  | rdCountLo => cases h; exact ⟨s, .inl rfl, .read _ rfl⟩
  | rdCountHi => cases h; exact ⟨s, .inl rfl, .read _ rfl⟩
  | rdReserved off => cases h; exact ⟨s, .inl rfl, .read _ rfl⟩
  | wrIgnored off v => cases h; exact ⟨_, .inr rfl, .nothing⟩
  | ff j => cases h; exact ⟨s, .inl rfl, .round _⟩
  | gg j => cases h; exact ⟨s, .inl rfl, .round _⟩
  | hh j => cases h; exact ⟨s, .inl rfl, .round _⟩
  | ii j => cases h; exact ⟨s, .inl rfl, .round _⟩

/-- Completing the port's write does not change what an ingestion takes. -/
@[simp] theorem State.acknowledge_fedBy (s : State) (i : Instr) : s.acknowledge.fedBy i = s.fedBy i := rfl

end Sys2Proof.Machine
end

