-- ==== Sys2Proof/Laws/PerInstr.lean ====
section
/-! SUPPORT. The family WellFormedDecode: no decoder gives an instruction that is not well-formed, per instruction. -/

namespace Sys2Proof.Laws.WellFormedDecode

/-- Whatever decodes to i, i is well-formed (rules R72, R80, R85). -/
def Statement (i : Instr) : Prop := ∀ c : Code, decode c = i → i.wf = true

theorem of_decode {i : Instr} : Statement i := fun c h => h ▸ decode_wf c

theorem nop : Statement .nop := of_decode
theorem init : Statement .init := of_decode
theorem ingestByte (byte : Byte) : Statement (.ingestByte byte) := of_decode
theorem ingestWord (km1 : BitVec 2) : Statement (.ingestWord km1) := of_decode
theorem finalize : Statement .finalize := of_decode
theorem illegal (w : Word) : Statement (.illegal w) := of_decode
theorem rdCmd : Statement .rdCmd := of_decode
theorem wrCmd (w : Word) : Statement (.wrCmd w) := of_decode
theorem rdData : Statement .rdData := of_decode
theorem wrData (v : Word) : Statement (.wrData v) := of_decode
theorem rdStatus : Statement .rdStatus := of_decode
theorem rdDigest (k : BitVec 2) : Statement (.rdDigest k) := of_decode
theorem rdCountLo : Statement .rdCountLo := of_decode
theorem rdCountHi : Statement .rdCountHi := of_decode
theorem rdReserved (off : BitVec 6) : Statement (.rdReserved off) := of_decode
theorem wrIgnored (off : BitVec 6) (v : Word) : Statement (.wrIgnored off v) := of_decode
theorem ff (j : BitVec 4) : Statement (.ff j) := of_decode
theorem gg (j : BitVec 4) : Statement (.gg j) := of_decode
theorem hh (j : BitVec 4) : Statement (.hh j) := of_decode
theorem ii (j : BitVec 4) : Statement (.ii j) := of_decode

end Sys2Proof.Laws.WellFormedDecode
end

