-- ==== Sys2Proof/Laws/Round.lean ====
section
/-! SUPPORT. One round, field by field; and the round instruction that the engine decodes from RND runs that round. -/

namespace Sys2Proof.Machine

section
variable (f : Word → Word → Word → Word) (rnd : BitVec 6) (e : Engine)

@[simp] theorem Engine.roundWith_a : (e.roundWith f rnd).a = e.d := rfl
@[simp] theorem Engine.roundWith_b : (e.roundWith f rnd).b =
    e.b + rotl (e.a + f e.b e.c e.d + e.word (msgIndex rnd) + additiveConstant rnd) (shiftAmount rnd) := rfl
@[simp] theorem Engine.roundWith_c : (e.roundWith f rnd).c = e.b := rfl
@[simp] theorem Engine.roundWith_d : (e.roundWith f rnd).d = e.c := rfl
@[simp] theorem Engine.roundWith_a0 : (e.roundWith f rnd).a0 = e.a0 := rfl
@[simp] theorem Engine.roundWith_b0 : (e.roundWith f rnd).b0 = e.b0 := rfl
@[simp] theorem Engine.roundWith_c0 : (e.roundWith f rnd).c0 = e.c0 := rfl
@[simp] theorem Engine.roundWith_d0 : (e.roundWith f rnd).d0 = e.d0 := rfl
@[simp] theorem Engine.roundWith_x : (e.roundWith f rnd).x = e.x := rfl
@[simp] theorem Engine.roundWith_rnd : (e.roundWith f rnd).rnd = e.rnd := rfl

end

/-- The transform as the fold it is. Cite this rather than unfold `transform`. -/
theorem transform_eq (h : Hash) (x : MsgWords) :
    transform h x = ((List.range 64).foldl Engine.round (Engine.load h x)).result := by rw [transform]

/-- A round index is its pass followed by its position (rule R85). -/
theorem pass_append_pos (rnd : BitVec 6) : passOf rnd ++ posOf rnd = rnd := by
  apply BitVec.eq_of_getLsbD_eq
  intro i hi
  simp only [passOf, posOf, BitVec.getLsbD_append, BitVec.getLsbD_extractLsb']
  split
  · next h => rw [decide_eq_true h, Nat.zero_add, Bool.true_and]
  · next h => rw [decide_eq_true (by omega), Bool.true_and, Nat.add_sub_cancel' (by omega)]

theorem pass_cases (p : BitVec 2) : p = 0 ∨ p = 1 ∨ p = 2 ∨ p = 3 := by
  bv_omega

/-- The ROUND decoder by passes. -/
theorem decodeRound_eq (rnd : BitVec 6) : decodeRound rnd =
    if passOf rnd = 0 then .ff (posOf rnd) else if passOf rnd = 1 then .gg (posOf rnd)
    else if passOf rnd = 2 then .hh (posOf rnd) else .ii (posOf rnd) := rfl

/-- The round decoded from RND is run with the function of RND's pass and RND's own schedule (rules R85, R120). -/
theorem exec_decodeRound (rnd : BitVec 6) (s : State) :
    exec (decodeRound rnd) s = .next (s.setEngine (s.engine.roundWith (passFunction rnd) rnd)) := by
  have h := pass_append_pos rnd
  rw [decodeRound_eq]
  unfold passFunction
  rcases pass_cases (passOf rnd) with hp | hp | hp | hp <;> rw [hp] at h ⊢
  · show Host.Outcome.next (s.setEngine (s.engine.roundWith funF (0b00#2 ++ posOf rnd))) = _
    rw [show 0b00#2 ++ posOf rnd = rnd from h]; rfl
  · show Host.Outcome.next (s.setEngine (s.engine.roundWith funG (0b01#2 ++ posOf rnd))) = _
    rw [show 0b01#2 ++ posOf rnd = rnd from h]; rfl
  · show Host.Outcome.next (s.setEngine (s.engine.roundWith funH (0b10#2 ++ posOf rnd))) = _
    rw [show 0b10#2 ++ posOf rnd = rnd from h]; rfl
  · show Host.Outcome.next (s.setEngine (s.engine.roundWith funI (0b11#2 ++ posOf rnd))) = _
    rw [show 0b11#2 ++ posOf rnd = rnd from h]; rfl

end Sys2Proof.Machine
end

