-- ==== Sys2Proof/Laws/Step.lean ====
section
/-! SUPPORT. All that a step can do, said once: nothing, an admitted access, a reset, or a round with what follows it. -/

namespace Sys2Proof.Machine

/-- The engine after the round that RND selects. -/
def State.roundDone (s : State) : State :=
  s.setEngine (s.engine.roundWith (passFunction s.engine.rnd) s.engine.rnd)

/-- With a command in progress a step is one round. -/
theorem step_of_busy {s : State} (h : s.activity ≠ .idle) : step s = .next s.roundDone.afterRound := by
  have key : thenAfterRound (exec (decodeRound s.engine.rnd) s) = .next s.roundDone.afterRound := by
    rw [exec_decodeRound]; rfl
  unfold step State.nextTurn
  split
  · next i t ht =>
    split at ht
    · exact absurd ‹_› h
    all_goals cases ht
  · next i hi =>
    split at hi
    · exact absurd ‹_› h
    all_goals (cases hi; exact key)
  · next t ht =>
    split at ht
    · exact absurd ‹_› h
    all_goals cases ht
  · next r hr =>
    split at hr
    · exact absurd ‹_› h
    all_goals cases hr

/-- With nothing to come a step keeps the state. -/
theorem step_of_nothing {s : State} (h : s.activity = .idle) (hp : s.pending = []) : step s = .next s := by
  unfold step State.nextTurn
  rw [h, hp]

/-- An access at the port: refused by name, or its instruction run. -/
theorem step_of_access {s : State} {a : Access} {rest : List Stimulus} (h : s.activity = .idle)
    (hp : s.pending = .access a :: rest) :
    step s = match a.refusal with
      | some r => .refused r
      | none => exec (decode a.code) (s.setPending rest) := by
  unfold step State.nextTurn
  rw [h, hp]
  show (match (match a.refusal with
    | some r => Turn.refuse r
    | none => Turn.access (decode a.code) (s.setPending rest)) with
    | .access i t => exec i t
    | .round i => thenAfterRound (exec i s)
    | .become t => .next t
    | .refuse r => .refused r) = _
  cases a.refusal <;> rfl

theorem step_of_reset {s : State} {strap : Bool} {rest : List Stimulus} (h : s.activity = .idle)
    (hp : s.pending = .reset strap :: rest) : step s = .next ((s.setPending rest).resetBy strap) := by
  unfold step State.nextTurn
  rw [h, hp]
  rfl

theorem step_of_accessInReset {s : State} {a : Access} {rest : List Stimulus} (h : s.activity = .idle)
    (hp : s.pending = .accessInReset a :: rest) : step s = .refused .accessWhileReset := by
  unfold step State.nextTurn
  rw [h, hp]
  rfl

theorem step_of_resetDuring {s : State} {a : Access} {rest : List Stimulus} (h : s.activity = .idle)
    (hp : s.pending = .resetDuring a :: rest) : step s = .refused .resetDuringCommand := by
  unfold step State.nextTurn
  rw [h, hp]
  rfl

/-- The ways a step can answer next. -/
inductive StepEffect (s : State) : State → Prop where
  | nothing : s.activity = .idle → s.pending = [] → StepEffect s s
  | access (a : Access) (rest : List Stimulus) (t : State) : s.activity = .idle → s.pending = .access a :: rest →
      a.refusal = none → exec (decode a.code) (s.setPending rest) = .next t → StepEffect s t
  | reset (strap : Bool) (rest : List Stimulus) : s.activity = .idle → s.pending = .reset strap :: rest →
      StepEffect s ((s.setPending rest).resetBy strap)
  | round : s.activity ≠ .idle → StepEffect s s.roundDone.afterRound

/-- All that a step can do. -/
theorem step_effect {s t : State} (h : step s = .next t) : StepEffect s t := by
  by_cases ha : s.activity = .idle
  · cases hp : s.pending with
    | nil => rw [step_of_nothing ha hp] at h; cases h; exact .nothing ha hp
    | cons q rest =>
      cases q with
      | access a =>
        rw [step_of_access ha hp] at h
        cases hr : a.refusal with
        | none => rw [hr] at h; exact .access a rest t ha hp hr h
        | some r => rw [hr] at h; cases h
      | reset strap => rw [step_of_reset ha hp] at h; cases h; exact .reset strap rest ha hp
      | accessInReset a => rw [step_of_accessInReset ha hp] at h; cases h
      | resetDuring a => rw [step_of_resetDuring ha hp] at h; cases h
  · rw [step_of_busy ha] at h; cases h; exact .round ha

/-- What a decoded access can be: never a bare command and never a round. -/
theorem decode_access_code (a : Access) :
    decode a.code = match a.dir with
      | .read => decodeBus (descriptor false a.wordOffset) 0
      | .write v => decodeBus (descriptor true a.wordOffset) v := by
  unfold Access.code
  cases a.dir <;> rfl

end Sys2Proof.Machine
end

