-- ==== Sys2Proof/Laws/Sequencer.lean ====
section
/-! SUPPORT. What a command in progress does between rounds, and what a step or an instruction leaves of each field that the
whole-machine rules speak of. -/

namespace Sys2Proof.Machine

/-- Ingesting up to the next transform writes BUF, COUNT, the engine and the activity, nothing else. -/
theorem State.beginIngest_frame (bs : List Byte) (s : State) :
    State.beginIngest bs s = { s with buf := (State.beginIngest bs s).buf, count := (State.beginIngest bs s).count,
                                      engine := (State.beginIngest bs s).engine,
                                      activity := (State.beginIngest bs s).activity } := by
  induction bs generalizing s with
  | nil => rfl
  | cons b bs ih =>
    unfold State.beginIngest
    split
    · rfl
    · have h := ih (s.putByte b)
      generalize State.beginIngest bs (s.putByte b) = t at h ⊢
      rw [h]
      rfl

section
variable (bs : List Byte) (s : State)

@[simp] theorem State.beginIngest_h : (State.beginIngest bs s).h = s.h := by
  have h := congrArg State.h (State.beginIngest_frame bs s); exact h
@[simp] theorem State.beginIngest_finalized : (State.beginIngest bs s).finalized = s.finalized := by
  have h := congrArg State.finalized (State.beginIngest_frame bs s); exact h
@[simp] theorem State.beginIngest_errCode : (State.beginIngest bs s).errCode = s.errCode := by
  have h := congrArg State.errCode (State.beginIngest_frame bs s); exact h
@[simp] theorem State.beginIngest_digestH : (State.beginIngest bs s).digestH = s.digestH := by
  have h := congrArg State.digestH (State.beginIngest_frame bs s); exact h
@[simp] theorem State.beginIngest_data : (State.beginIngest bs s).data = s.data := by
  have h := congrArg State.data (State.beginIngest_frame bs s); exact h
@[simp] theorem State.beginIngest_hostBe : (State.beginIngest bs s).hostBe = s.hostBe := by
  have h := congrArg State.hostBe (State.beginIngest_frame bs s); exact h
@[simp] theorem State.beginIngest_fin : (State.beginIngest bs s).fin = s.fin := by
  have h := congrArg State.fin (State.beginIngest_frame bs s); exact h
@[simp] theorem State.beginIngest_response : (State.beginIngest bs s).response = s.response := by
  have h := congrArg State.response (State.beginIngest_frame bs s); exact h
@[simp] theorem State.beginIngest_pending : (State.beginIngest bs s).pending = s.pending := by
  have h := congrArg State.pending (State.beginIngest_frame bs s); exact h
@[simp] theorem State.beginIngest_faults : (State.beginIngest bs s).faults = s.faults := by
  have h := congrArg State.faults (State.beginIngest_frame bs s); exact h
@[simp] theorem State.beginIngest_draws : (State.beginIngest bs s).draws = s.draws := by
  have h := congrArg State.draws (State.beginIngest_frame bs s); exact h

end

theorem State.beginIngest_wf (bs : List Byte) {s : State} (h : s.buf.wf = true) :
    (State.beginIngest bs s).buf.wf = true := by
  induction bs generalizing s with
  | nil => exact h
  | cons b bs ih =>
    have hb : (s.putByte b).buf.wf = true := Memory.wf_write h s.fill_lt b
    unfold State.beginIngest
    split
    · exact hb
    · exact ih hb

/-- The fields `finishTransform` never touches, and what it does to the others that rules speak of. -/
theorem State.finishTransform_effect (s : State) :
    (s.finishTransform.errCode = s.errCode ∧ s.finishTransform.data = s.data ∧
      s.finishTransform.hostBe = s.hostBe ∧ s.finishTransform.response = s.response ∧
      s.finishTransform.pending = s.pending ∧ s.finishTransform.faults = s.faults) ∧
    (s.buf.wf = true → s.finishTransform.buf.wf = true) ∧
    (s.finishTransform.finalized = s.finalized ∨
      (s.finishTransform.finalized = true ∧ s.activity = .finalizing false)) := by
  unfold State.finishTransform
  split
  · exact ⟨⟨rfl, rfl, rfl, rfl, rfl, rfl⟩, id, .inl rfl⟩
  · next rest _ =>
    refine ⟨by simp, fun h => State.beginIngest_wf rest ?_, .inl (by simp)⟩
    simpa using h
  · simp
  · next h => exact ⟨by simp, by simp, .inr ⟨by simp, h⟩⟩

/-- After a round: DATA, HOST_BE, the error, its history and the host's side are as before; BUF's store stays canonical;
FINALIZED moves only where the last transform of a FINALIZE ends. -/
theorem State.afterRound_effect (s : State) :
    (s.afterRound.errCode = s.errCode ∧ s.afterRound.data = s.data ∧ s.afterRound.hostBe = s.hostBe ∧
      s.afterRound.response = s.response ∧ s.afterRound.pending = s.pending ∧ s.afterRound.faults = s.faults) ∧
    (s.buf.wf = true → s.afterRound.buf.wf = true) ∧
    (s.afterRound.finalized = s.finalized ∨
      (s.afterRound.finalized = true ∧ s.activity = .finalizing false ∧ s.engine.rnd = 63)) := by
  unfold State.afterRound
  split
  · next h63 =>
    obtain ⟨h1, h2, h3⟩ := s.finishTransform_effect
    exact ⟨h1, h2, h3.imp id fun h => ⟨h.1, h.2, h63⟩⟩
  · simp

/-- A command word is what an access that performs INIT or FINALIZE carries: no other access does either. -/
theorem command_of_access (a : Access) {c : Instr} (hc : c = .init ∨ c = .finalize)
    (h : (decode a.code).command = c) : ∃ w, decode a.code = .wrCmd w ∧ decodeCmd w = c := by
  have other : ∀ i : Instr, i.command = i → i ≠ .init → i ≠ .finalize → i.command = c → False := by
    intro i h1 h2 h3 h4
    rw [h1] at h4
    rcases hc with rfl | rfl
    · exact h2 h4
    · exact h3 h4
  rw [decode_access_code] at h ⊢
  cases hd : a.dir with
  | read =>
    rw [hd] at h
    have e : (descriptor false a.wordOffset).getLsbD 6 = false := by
      unfold descriptor; rw [BitVec.getLsbD_append]; rfl
    simp only [decodeBus, e, Bool.false_eq_true, if_false] at h
    refine (?_ : False).elim
    revert h
    repeat' split
    all_goals exact other _ rfl nofun nofun
  | write v =>
    rw [hd] at h
    have e : (descriptor true a.wordOffset).getLsbD 6 = true := by
      unfold descriptor; rw [BitVec.getLsbD_append]; rfl
    simp only [decodeBus, e, if_true] at h ⊢
    revert h
    split
    · exact fun h => ⟨v, rfl, h⟩
    · split
      · exact fun h => (other (.wrData v) rfl nofun nofun h).elim
      · exact fun h => (other (.wrIgnored _ v) rfl nofun nofun h).elim

/-- The state an access runs in and the one its instruction's effect starts from agree on these fields. -/
theorem access_effect {i : Instr} {s t : State} {rest : List Stimulus} (h : exec i (s.setPending rest) = .next t) :
    ∃ u, Effect i u t ∧ u.h = s.h ∧ u.buf = s.buf ∧ u.count = s.count ∧ u.finalized = s.finalized ∧
      u.errCode = s.errCode ∧ u.data = s.data ∧ u.hostBe = s.hostBe ∧ u.faults = s.faults := by
  obtain ⟨u, rfl | rfl, he⟩ := exec_effect h
  · exact ⟨_, he, rfl, rfl, rfl, rfl, rfl, rfl, rfl, rfl⟩
  · exact ⟨_, he, rfl, rfl, rfl, rfl, rfl, rfl, rfl, rfl⟩

end Sys2Proof.Machine
end

