-- ==== Sys2Proof/Laws/Transform.lean ====
section
/-! SUPPORT. Sixty-four steps of a state with a command in progress are one transform, then what is left of the command. Each
lemma is about an engine that is a variable: instantiated, never generalized, the kernel does not run the rounds. -/

namespace Sys2Proof.Machine

/-- The engine with another round counter. -/
def Engine.withRnd (e : Engine) (r : BitVec 6) : Engine := { e with rnd := r }

@[simp] theorem Engine.withRnd_rnd (e : Engine) (r : BitVec 6) : (e.withRnd r).rnd = r := rfl
@[simp] theorem Engine.withRnd_result (e : Engine) (r : BitVec 6) : (e.withRnd r).result = e.result := rfl

/-- A round does not look at RND itself: the sequencer hands it the index. -/
theorem Engine.withRnd_round (e : Engine) (r : BitVec 6) (i : Nat) :
    (e.withRnd r).round i = (e.round i).withRnd r := rfl

theorem Engine.withRnd_foldl (l : List Nat) (e : Engine) (r : BitVec 6) :
    l.foldl Engine.round (e.withRnd r) = (l.foldl Engine.round e).withRnd r := by
  induction l generalizing e with
  | nil => rfl
  | cons i l ih => rw [List.foldl_cons, Engine.withRnd_round, ih, List.foldl_cons]

theorem State.setEngine_setEngine (s : State) (e f : Engine) : (s.setEngine e).setEngine f = s.setEngine f := rfl

/-- Steps add up. -/
theorem runSteps_add (a b : Nat) {s t : State} (h : runSteps a s = .next t) : runSteps (a + b) s = runSteps b t := by
  induction a generalizing s with
  | zero => cases h; rw [Nat.zero_add]
  | succ a ih =>
    rw [Nat.add_right_comm]
    change (match step s with
      | .next t => runSteps a t | .fault r => .fault r | .refused r => .refused r) = _ at h
    show (match step s with
      | .next t => runSteps (a + b) t | .fault r => .fault r | .refused r => .refused r) = _
    cases hs : step s with
    | next u => rw [hs] at h; exact ih h
    | fault r => rw [hs] at h; cases h
    | refused r => rw [hs] at h; cases h

/-- A round that is not the last. -/
theorem step_of_round {s : State} {n : Nat} (hn : n < 63) (hr : s.engine.rnd = BitVec.ofNat 6 n)
    (ha : s.activity ≠ .idle) :
    step s = .next (s.setEngine ((s.engine.round n).withRnd (BitVec.ofNat 6 (n + 1)))) := by
  have hne : ¬ s.roundDone.engine.rnd = 63 := by
    show ¬ s.engine.rnd = 63
    rw [hr]
    intro hc
    have h : n % 64 = 63 := congrArg BitVec.toNat hc
    omega
  have hsucc : s.engine.rnd + 1 = BitVec.ofNat 6 (n + 1) := by
    rw [hr]
    apply BitVec.eq_of_toNat_eq
    simp
  have hd : s.roundDone = s.setEngine (s.engine.round n) := by
    rw [State.roundDone, hr]
    rfl
  rw [step_of_busy ha, State.afterRound, if_neg hne, hd, ← hsucc]
  rfl

/-- The rounds from n up to the one before the last. -/
theorem runSteps_rounds (k n : Nat) {s : State} (h : n + k = 63) (hr : s.engine.rnd = BitVec.ofNat 6 n)
    (ha : s.activity ≠ .idle) :
    runSteps k s = .next (s.setEngine (((List.range' n k).foldl Engine.round s.engine).withRnd 63)) := by
  induction k generalizing n s with
  | zero =>
    obtain rfl : n = 63 := by omega
    have : s.engine.withRnd 63 = s.engine := by
      unfold Engine.withRnd
      rw [show (63 : BitVec 6) = s.engine.rnd from hr.symm]
    rw [List.range'_zero, List.foldl_nil, this]
    rfl
  | succ k ih =>
    have next := step_of_round (by omega : n < 63) hr ha
    have rest := ih (n + 1) (s := s.setEngine ((s.engine.round n).withRnd (BitVec.ofNat 6 (n + 1)))) (by omega) rfl ha
    show (match step s with
      | .next t => runSteps k t | .fault r => .fault r | .refused r => .refused r) = _
    rw [next, List.range'_succ, List.foldl_cons]
    rw [State.setEngine_setEngine, State.setEngine_engine, Engine.withRnd_foldl] at rest
    exact rest

/-- The last round, and what follows it. -/
theorem runSteps_last_round {s : State} {e : Engine} (hr : e.rnd = 63) (ha : s.activity ≠ .idle) :
    runSteps 1 (s.setEngine e) = .next (s.setEngine (e.round 63)).finishTransform := by
  have hb : (s.setEngine e).activity ≠ .idle := ha
  unfold runSteps
  rw [step_of_busy hb]
  show Host.Outcome.next _ = _
  rw [State.afterRound, if_pos (show (s.setEngine e).roundDone.engine.rnd = 63 from hr), State.roundDone,
    State.setEngine_setEngine, State.setEngine_engine, hr]
  rfl

/-- After the sixty-four rounds the engine's result is the transform. -/
theorem Engine.result_of_rounds {e : Engine} {h : Hash} {x : MsgWords} (he : e = Engine.load h x) :
    ((((List.range' 0 63).foldl Engine.round e).withRnd 63).round 63).result = transform h x := by
  have fold : ∀ (f : Engine → Nat → Engine) (e : Engine),
      f ((List.range' 0 63).foldl f e) 63 = (List.range 64).foldl f e := by
    intro f e
    rw [List.range_succ, List.foldl_append, ← List.range_eq_range', List.foldl_cons, List.foldl_nil]
  rw [Engine.withRnd_round, Engine.withRnd_result, fold Engine.round, he, ← transform_eq]

/-- Sixty-four steps from a loaded engine: the transform's result is in the engine, and the command goes on. -/
theorem runSteps_transform {s : State} {h : Hash} {x : MsgWords} (he : s.engine = Engine.load h x)
    (ha : s.activity ≠ .idle) :
    ∃ e : Engine, e.result = transform h x ∧ runSteps 64 s = .next (s.setEngine e).finishTransform := by
  have rounds := runSteps_rounds 63 0 (s := s) rfl (by rw [he]; rfl) ha
  exact ⟨_, Engine.result_of_rounds he,
    (runSteps_add 63 1 rounds).trans (runSteps_last_round (Engine.withRnd_rnd _ _) ha)⟩

end Sys2Proof.Machine
end

