-- ==== Sys2Proof/Tests/Slice0.lean ====
section
/-! SUPPORT. The model's own tests: expected values from the encodings of spec/30_encoding.md and the vectors V10 to V42 of
spec/95_test_vectors.md; and, for each obligation with hypotheses, a witness that meets them. -/

namespace Sys2Proof.Tests

open Sys2Proof Sys2Proof.Machine

/-! ### Small states -/

/-- After reset, on a little-endian host. -/
def le : State := { State.reset with hostBe := false }

/-- After reset, on a big-endian host. -/
def be : State := { State.reset with hostBe := true }

/-- After n bytes 0x61 (n < 64) on a little-endian host. -/
def filled (n : Nat) : State :=
  { le with buf := (List.range n).map (fun i => (i, 0x61)), count := BitVec.ofNat 64 n }

/-- After FINALIZE. -/
def finalized : State := { filled 1 with finalized := true, digestH := ⟨0x11223344, 2, 3, 4⟩ }

/-- The engine of V21: a transform of the block X2 from the initial state. -/
def engineX2 : Engine :=
  Engine.load initialHash (Vector.ofFn fun k : Fin 16 => 0x03020100 + 0x04040404 * BitVec.ofNat 32 k.val)

def atRound (e : Engine) : State := { le with engine := e, activity := .ingesting [] }

/-- One value of the state after an instruction, none if it gives no next state. -/
def after {α : Type} (i : Instr) (s : State) (f : State → α) : Option α :=
  match exec i s with
  | .next t => some (f t)
  | .fault _ => none
  | .refused _ => none

/-- The same after a step. -/
def stepped {α : Type} (s : State) (f : State → α) : Option α :=
  match step s with
  | .next t => some (f t)
  | .fault _ => none
  | .refused _ => none

/-- What a step of a state with this access pending is refused for. -/
def refusalOf (q : Stimulus) : Option Refusal :=
  match step (le.setPending [q]) with
  | .next _ => none
  | .fault _ => none
  | .refused r => some r

/-! ### Well-formedness: terms no encoding stands for -/

theorem test_illegal_of_a_command_word_refused :
    (Instr.illegal 0x00000000).wf = false ∧ (Instr.illegal 0x200000FF).wf = false ∧
    (Instr.illegal 0x30000003).wf = false ∧ (Instr.illegal 0x40000000).wf = false := by decide

theorem test_reserved_read_of_a_register_refused :
    (Instr.rdReserved 0).wf = false ∧ (Instr.rdReserved 2).wf = false ∧ (Instr.rdReserved 7).wf = false ∧
    (Instr.rdReserved 9).wf = false := by decide

theorem test_ignored_write_of_a_register_refused :
    (Instr.wrIgnored 0 5).wf = false ∧ (Instr.wrIgnored 1 5).wf = false := by decide

/-! ### Decoding: words written out from the encodings (rules R71 to R73, R80, R85; V35) -/

theorem test_decode_nop : decodeCmd 0b0000_0000000000000000000000000000 = .nop := by decide
theorem test_decode_init : decodeCmd 0b0001_0000000000000000000000000000 = .init := by decide
theorem test_decode_ingest_byte :
    decodeCmd 0b0010_00000000000000000000_11111111 = .ingestByte 0xFF ∧
    decodeCmd 0b0010_00000000000000000000_00000000 = .ingestByte 0x00 := by decide
theorem test_decode_ingest_word :
    decodeCmd 0b0011_00000000000000000000000000_00 = .ingestWord 0 ∧
    decodeCmd 0b0011_00000000000000000000000000_11 = .ingestWord 3 := by decide
theorem test_decode_finalize : decodeCmd 0b0100_0000000000000000000000000000 = .finalize := by decide
theorem test_decode_illegal_reserved_bits :
    decodeCmd 0x00000001 = .illegal 0x00000001 ∧ decodeCmd 0x1FFFFFFF = .illegal 0x1FFFFFFF ∧
    decodeCmd 0x20000100 = .illegal 0x20000100 ∧ decodeCmd 0x28000041 = .illegal 0x28000041 ∧
    decodeCmd 0x30000004 = .illegal 0x30000004 ∧ decodeCmd 0x40000080 = .illegal 0x40000080 := by decide
theorem test_decode_illegal_reserved_codes :
    decodeCmd 0x50000000 = .illegal 0x50000000 ∧ decodeCmd 0x80000000 = .illegal 0x80000000 ∧
    decodeCmd 0xF0000000 = .illegal 0xF0000000 ∧ decodeCmd 0xFFFFFFFF = .illegal 0xFFFFFFFF := by decide
theorem test_decode_cmd_accesses :
    decodeBus 0b0_000000 7 = .rdCmd ∧ decodeBus 0b1_000000 7 = .wrCmd 7 := by decide
theorem test_decode_data_accesses :
    decodeBus 0b0_000001 7 = .rdData ∧ decodeBus 0b1_000001 7 = .wrData 7 := by decide
theorem test_decode_status_and_count :
    decodeBus 0b0_000010 7 = .rdStatus ∧ decodeBus 0b0_001000 7 = .rdCountLo ∧ decodeBus 0b0_001001 7 = .rdCountHi := by
  decide
theorem test_decode_digest :
    decodeBus 0b0_000100 7 = .rdDigest 0 ∧ decodeBus 0b0_000101 7 = .rdDigest 1 ∧
    decodeBus 0b0_000110 7 = .rdDigest 2 ∧ decodeBus 0b0_000111 7 = .rdDigest 3 := by decide
theorem test_decode_reserved :
    decodeBus 0b0_000011 7 = .rdReserved 3 ∧ decodeBus 0b0_001010 7 = .rdReserved 10 ∧
    decodeBus 0b0_111111 7 = .rdReserved 63 := by decide
theorem test_decode_ignored :
    decodeBus 0b1_000010 7 = .wrIgnored 2 7 ∧ decodeBus 0b1_000011 7 = .wrIgnored 3 7 ∧
    decodeBus 0b1_111111 7 = .wrIgnored 63 7 := by decide
theorem test_decode_rounds :
    decodeRound 0b00_0000 = .ff 0 ∧ decodeRound 0b01_0000 = .gg 0 ∧ decodeRound 0b10_1001 = .hh 9 ∧
    decodeRound 0b11_1111 = .ii 15 := by decide

/-- The accesses of rule R90's lines reach the operations named there. -/
theorem test_decode_assembler_lines :
    instrsOf [.ingestB 0x41, .ingestW 3, .init, .finalize, .nop, .rd (.digest 3), .rd (.raw 0xFC), .wr (.raw 0x80) 7]
      = [.wrCmd 0x20000041, .wrCmd 0x30000003, .wrCmd 0x10000000, .wrCmd 0x40000000, .wrCmd 0x00000000, .rdDigest 3,
         .rdReserved 63, .wrIgnored 32 7] := by decide

/-! ### Shared operations -/

/-- V11. -/
theorem test_rotl :
    rotl 0x80000001 1 = 0x00000003 ∧ rotl 0x12345678 7 = 0x1A2B3C09 ∧ rotl 0x12345678 23 = 0x3C091A2B ∧
    rotl 0x00000001 31 = 0x80000000 ∧ rotl 0xDEADBEEF 0 = 0xDEADBEEF ∧ rotl 0xDEADBEEF 32 = 0xDEADBEEF := by decide

/-- V12. -/
theorem test_swap32 :
    swap32 0x80000000 = 0x00000080 ∧ swap32 0x44434241 = 0x41424344 ∧ swap32 0x414243FF = 0xFF434241 ∧
    swap32 0xD98C1DD4 = 0xD41D8CD9 := by decide

/-- V10, the row with mixed words. -/
theorem test_nonlinear_functions :
    funF 0x12345678 0x9ABCDEF0 0x0F0F0F0F = 0x1F3F5F77 ∧ funG 0x12345678 0x9ABCDEF0 0x0F0F0F0F = 0x92B4D6F8 ∧
    funH 0x12345678 0x9ABCDEF0 0x0F0F0F0F = 0x87878787 ∧ funI 0x12345678 0x9ABCDEF0 0x0F0F0F0F = 0x68482808 := by decide

/-- V14. -/
theorem test_schedule :
    (msgIndex 19, shiftAmount 19, additiveConstant 19) = (0, 20, 0xE9B6C7AA) ∧
    (msgIndex 31, shiftAmount 31, additiveConstant 31) = (12, 20, 0x8D2A4C8A) ∧
    (msgIndex 41, shiftAmount 41, additiveConstant 41) = (0, 11, 0xEAA127FA) ∧
    (msgIndex 63, shiftAmount 63, additiveConstant 63) = (9, 21, 0xEB86D391) := by decide

/-- V26: the only block of "a" as words; V25: the length field of 2^61 - 1 bytes. -/
theorem test_padding :
    (words (filled 1).firstPadBlock).toList = [0x00008061, 0, 0, 0, 0, 0, 0, 0, 0, 0, 0, 0, 0, 0, 0x00000008, 0] ∧
    bytesLE64 ({ le with count := 0x1FFFFFFFFFFFFFFF } : State).bitLength
      = [0xF8, 0xFF, 0xFF, 0xFF, 0xFF, 0xFF, 0xFF, 0xFF] := by decide +kernel

/-- V42. -/
theorem test_hex : hexChars [0xd4, 0x1d, 0x8c, 0xd9] = ['d', '4', '1', 'd', '8', 'c', 'd', '9'] := by decide

/-! ### Commands -/

theorem test_nop_keeps_count : after .nop (filled 5) (·.count) = some 5 := by decide

/-- V36: INIT clears the flag, the error and the count. -/
theorem test_init_clears :
    after .init { finalized with errCode := 1 } (fun t => (t.finalized, t.errCode, t.count, t.digestH.a))
      = some (false, 0, 0, 0x11223344) := by decide

theorem test_ingest_byte_at_fill :
    after (.ingestByte 0x42) (filled 1) (fun t => (t.bufByte 0, t.bufByte 1, t.count)) = some (0x61, 0x42, 2) := by decide

/-- V22: the 64th byte runs one transform. -/
theorem test_ingest_byte_completes_block :
    after (.ingestByte 0x61) (filled 63) (fun t => (t.h, t.fill))
      = some (⟨0x89D4FF56, 0x125CD962, 0x69CADE33, 0x0033E325⟩, 0) := by decide +kernel

/-- V13, third row: k = 3 on a big-endian host, the fourth byte ignored. -/
theorem test_ingest_word_big_endian_tail :
    after (.ingestWord 2) { be with data := 0x414243FF } (fun t => (t.buf, t.count))
      = some ([(0, 0x41), (1, 0x42), (2, 0x43)], 3) := by decide

/-- V37: across the end of the block. -/
theorem test_ingest_word_across_block :
    after (.ingestWord 3) { filled 62 with data := 0x44434241 } (fun t => (t.h, t.bufByte 0, t.bufByte 1, t.count))
      = some (⟨0x9A8F4247, 0x6951EB4A, 0x27503502, 0x5E6FABF6⟩, 0x43, 0x44, 66) := by decide +kernel

/-- V30, n = 55: one padding block (V31 is the wrong value). -/
theorem test_finalize_one_block :
    after .finalize (filled 55) (fun t => (t.digestH, t.finalized))
      = some (⟨0xB67217EF, 0x22A1F9DF, 0x95528535, 0x65DFD04A⟩, true) := by decide +kernel

/-- V30, n = 56: two. -/
theorem test_finalize_two_blocks :
    after .finalize (filled 56) (fun t => (t.digestH, t.h, t.count))
      = some (⟨0xC78A0C3B, 0xB028F803, 0x70196C4C, 0x1872D106⟩, initialHash, 56) := by decide +kernel

/-- V36: the first error is kept. -/
theorem test_illegal_keeps_first_error :
    after (.illegal 0x50000000) { finalized with errCode := 1 } (fun t => (t.errCode, t.count, t.finalized))
      = some (1, 1, true) ∧
    after (.illegal 0x20000141) le (·.errCode) = some 2 := by decide

/-! ### Register accesses -/

theorem test_rd_cmd_reads_zero : after .rdCmd { le with data := 5 } (·.response) = some (some 0x00000000) := by decide

/-- V36: a write to CMD of INGEST_BYTE while finalized, and of NOP. -/
theorem test_wr_cmd_performs :
    after (.wrCmd 0x20000042) finalized (fun t => (t.errCode, t.count)) = some (1, 1) ∧
    after (.wrCmd 0x20000142) finalized (·.errCode) = some 2 ∧
    after (.wrCmd 0x20000041) le (fun t => (t.bufByte 0, t.count, t.response)) = some (0x41, 1, none) := by decide

/-- V40: stored unswapped, on either host. -/
theorem test_data_is_unswapped :
    after (.wrData 0x41424344) be (·.data) = some 0x41424344 ∧
    after .rdData { be with data := 0x41424344 } (·.response) = some (some 0x41424344) := by decide

/-- V36 and V40. -/
theorem test_rd_status :
    after .rdStatus { finalized with errCode := 2 } (·.response) = some (some 0x00000123) ∧
    after .rdStatus { filled 56 with hostBe := true, finalized := true } (·.response) = some (some 0x00003805) := by decide

/-- V1: the first word of the empty digest on either host; 0 before FINALIZE. -/
theorem test_rd_digest :
    after (.rdDigest 0) { le with finalized := true, digestH := ⟨0xD98C1DD4, 0, 0, 0⟩ } (·.response)
      = some (some 0xD98C1DD4) ∧
    after (.rdDigest 0) { be with finalized := true, digestH := ⟨0xD98C1DD4, 0, 0, 0⟩ } (·.response)
      = some (some 0xD41D8CD9) ∧
    after (.rdDigest 3) { be with digestH := ⟨1, 2, 3, 4⟩ } (·.response) = some (some 0x00000000) := by decide

theorem test_rd_count :
    after .rdCountLo { le with count := 0x1122334455667788 } (·.response) = some (some 0x55667788) ∧
    after .rdCountHi { le with count := 0x1122334455667788 } (·.response) = some (some 0x11223344) := by decide

theorem test_rd_reserved_reads_zero : after (.rdReserved 63) { le with data := 5 } (·.response) = some (some 0) := by decide

/-- V40: a write to STATUS or COUNT_LO changes nothing. -/
theorem test_wr_ignored_changes_nothing :
    after (.wrIgnored 2 0xFFFFFFFF) (filled 5) id = some (filled 5) ∧
    after (.wrIgnored 8 0x00000005) finalized id = some finalized := by decide +kernel

/-! ### Rounds (V21, block X2) -/

theorem test_ff :
    after (.ff 1) (atRound engineX2) (fun t => (t.engine.a, t.engine.b, t.engine.c, t.engine.d))
      = some (0x10325476, 0xCB934A85, 0xEFCDAB89, 0x98BADCFE) := by decide +kernel
theorem test_gg :
    after (.gg 15) (atRound engineX2) (fun t => (t.engine.a, t.engine.b, t.engine.c, t.engine.d))
      = some (0x10325476, 0x8408AE2B, 0xEFCDAB89, 0x98BADCFE) := by decide +kernel
theorem test_hh :
    after (.hh 0) (atRound engineX2) (fun t => (t.engine.a, t.engine.b, t.engine.c, t.engine.d))
      = some (0x10325476, 0x4976F117, 0xEFCDAB89, 0x98BADCFE) := by decide +kernel
theorem test_ii :
    after (.ii 15) (atRound engineX2) (fun t => (t.engine.a, t.engine.b, t.engine.c, t.engine.d))
      = some (0x10325476, 0x558BD8BB, 0xEFCDAB89, 0x98BADCFE) := by decide +kernel

/-! ### Steps -/

/-- The host's placement: the next step runs the placed command. -/
theorem test_step_of_placed_command :
    stepped (State.reset.withFetchWord 32 0x200000FF) (fun t => (t.bufByte 0, t.count, t.pending)) = some (0xFF, 1, []) ∧
    stepped (State.reset.withFetchWord 32 0x28000041) (·.errCode) = some 2 := by decide

/-- A placed access and a placed round. -/
theorem test_step_of_placed_access_and_round :
    stepped (be.withFetchWord 7 0b0000010) (·.response) = some (some 0x00000004) ∧
    stepped ((atRound engineX2).withFetchWord 6 0b000001) (fun t => (t.engine.b, t.engine.rnd)) = some (0xCB934A85, 2) := by
  decide +kernel

/-- A reset samples the strap. -/
theorem test_step_of_reset :
    stepped ({ finalized with data := 5, pending := [.reset true] } : State)
      (fun t => (t.hostBe, t.data, t.finalized, t.count)) = some (true, 0, false, 0) := by decide

/-- Rules R56, R63, R230, R232. -/
theorem test_refusals :
    refusalOf (.access ⟨.other, .word, 0x08, .read⟩) = some .secondAgent ∧
    refusalOf (.access ⟨.host, .byte, 0x08, .read⟩) = some .accessNotWordWide ∧
    refusalOf (.access ⟨.host, .half, 0x00, .write 0⟩) = some .accessNotWordWide ∧
    refusalOf (.access ⟨.host, .word, 0x09, .read⟩) = some .accessUnaligned ∧
    refusalOf (.access ⟨.host, .word, 0xFE, .read⟩) = some .accessUnaligned ∧
    refusalOf (.accessInReset ⟨.host, .word, 0x08, .read⟩) = some .accessWhileReset ∧
    refusalOf (.resetDuring ⟨.host, .word, 0x00, .write 0x40000000⟩) = some .resetDuringCommand := by decide

/-- The last round of a FINALIZE ends it (V20: the registers after round 62 of the empty block). -/
theorem test_step_of_last_round :
    stepped { le with engine := { Engine.load initialHash (words (blockOf [0x80])) with
        a := 0x30130182, b := 0xFF4EA3EB, c := 0x6E10A476, d := 0x7246FAD3, rnd := 63 }, activity := .finalizing false }
      (fun t => (t.digestH, t.finalized, t.activity))
      = some (⟨0xD98C1DD4, 0x04B2008F, 0x980980E9, 0x7E42F8EC⟩, true, .idle) := by decide +kernel

/-- A host address reaches the instance whose window holds it. -/
theorem test_window :
    windowOffset 0x40000000 0x40000010 = some 0x10 ∧ windowOffset 0x40000000 0x400000FC = some 0xFC ∧
    windowOffset 0x40000000 0x40000100 = none ∧ windowOffset 0x40000000 0x3FFFFFFC = none := by decide

/-! ### Witnesses: what meets the hypotheses of each obligation, at the ends of its ranges -/

/-- A state with one stimulus to come. -/
def facing (s : State) (q : Stimulus) : State := { s with pending := [q] }

/-- The host writes w to CMD. -/
def toCmd (w : Word) : Stimulus := .access (hostAccess 0x00 (.write w))

theorem witness_DecodeOfEncodeIsIdentity :
    (Instr.illegal 0x20000100).wf = true ∧ (Instr.rdReserved 3).wf = true ∧ (Instr.rdReserved 10).wf = true ∧
    (Instr.rdReserved 63).wf = true ∧ (Instr.wrIgnored 2 0).wf = true ∧ (Instr.wrIgnored 63 0xFFFFFFFF).wf = true ∧
    (Instr.ii 15).wf = true := by decide

theorem witness_CommandWordsSelectedByMatchAndMask :
    (∀ row ∈ cmdRows, (0xFFFFFFFF : Word) &&& row.2 ≠ row.1) ∧
    ((0x20000000, 0xFFFFFF00) ∈ cmdRows ∧ (0x200000FF : Word) &&& 0xFFFFFF00 = 0x20000000) ∧
    (0x30000000 : Word) &&& 0xFFFFFFFC = 0x30000000 ∧ (0x30000003 : Word) &&& 0xFFFFFFFC = 0x30000000 := by simp [cmdRows]

theorem witness_AccessDescriptorsSelectOperations :
    ((3 : BitVec 6) = 3) ∧ 10 ≤ (10 : BitVec 6).toNat ∧ 10 ≤ (63 : BitVec 6).toNat ∧ 2 ≤ (2 : BitVec 6).toNat ∧
    2 ≤ (63 : BitVec 6).toNat := by decide

theorem witness_RotateFollowsItsFormula : (1 ≤ 1 ∧ 1 ≤ 31) ∧ (1 ≤ 31 ∧ 31 ≤ 31) ∧ 0 < 32 ∧ 31 < 32 := by decide

theorem witness_WordsAndBytesAreLittleEndian : 0 < 16 ∧ 15 < 16 := by decide

theorem witness_NonlinearFunctionsBitByBit : 0 < 32 ∧ 31 < 32 := by decide

theorem witness_ResetStepSamplesTheStrap :
    (facing finalized (.reset true)).activity = .idle ∧ (facing finalized (.reset true)).pending = .reset true :: [] ∧
    (facing be (.reset false)).pending = .reset false :: [] := ⟨rfl, rfl, rfl⟩

theorem witness_ResetReadsLikeInit :
    finalized.data = 0x00000000 ∧ finalized.hostBe = false ∧ (Instr.rdDigest 3).isRead = true ∧
    Instr.rdStatus.isRead = true := by decide

theorem witness_IngestByteTakesOneByte :
    ((filled 62).buf.wf = true ∧ (filled 62).finalized = false ∧ (filled 62).fill ≠ 63) ∧
    ((filled 63).buf.wf = true ∧ (filled 63).finalized = false ∧ (filled 63).fill = 63) ∧
    (1 ≠ (filled 0).fill.toNat) ∧ finalized.buf.wf = true ∧ finalized.finalized = true := by decide +kernel

theorem witness_IngestAfterFinalizeIsRejected :
    finalized.finalized = true ∧ (∃ b, Instr.ingestByte 0x42 = .ingestByte b) ∧
    (∃ km1, Instr.ingestWord 3 = .ingestWord km1) := ⟨rfl, ⟨_, rfl⟩, ⟨_, rfl⟩⟩

theorem witness_IngestWordTakesTheFirstBytes :
    (filled 62).finalized = false ∧ be.finalized = false ∧ finalized.finalized = true := by decide

/-- The last byte short of the end of the block, and one past it. -/
theorem witness_IngestWordWritesOnlyItsBytes :
    ((filled 59).buf.wf = true ∧ (filled 59).finalized = false ∧ (filled 59).fill.toNat + (3 : BitVec 2).toNat + 1 < 64) ∧
    ((filled 60).buf.wf = true ∧ (filled 60).finalized = false ∧
      ¬ (filled 60).fill.toNat + (3 : BitVec 2).toNat + 1 < 64) ∧
    (∃ t, exec (.ingestWord 3) (filled 59) = .next t) ∧ ∃ t, exec (.ingestWord 3) (filled 60) = .next t :=
  ⟨by decide +kernel, by decide +kernel, ⟨_, rfl⟩, ⟨_, rfl⟩⟩

theorem witness_FinalizePadsAndHashes :
    (filled 0).fill.toNat ≤ 55 ∧ (filled 55).fill.toNat ≤ 55 ∧ 56 ≤ (filled 56).fill.toNat ∧
    56 ≤ (filled 63).fill.toNat := by decide

theorem witness_LengthFieldWraps :
    ({ le with count := 0x2000000000000000 } : State).count.toNat = 2 ^ 61 ∧
    ({ filled 1 with count := 0x2000000000000001 } : State).count.toNat = 2 ^ 61 + 1 := by decide

theorem witness_DecodeComesBeforeTheFinalizedCheck :
    (∀ row ∈ cmdRows, (0x20000142 : Word) &&& row.2 ≠ row.1) ∧
    (∀ row ∈ cmdRows, (0x30000007 : Word) &&& row.2 ≠ row.1) ∧ finalized.finalized = true ∧
    (0x20000042 : Word) &&& 0xFFFFFF00 = 0x20000000 ∧ (0x30000003 : Word) &&& 0xFFFFFFFC = 0x30000000 := by simp [cmdRows, finalized]

theorem witness_AnErrorIsTheOnlyEffect :
    ∃ t, exec (.wrCmd 0x20000042) finalized = .next t ∧ t.faults ≠ finalized.faults :=
  ⟨_, rfl, by decide⟩

theorem witness_DigestReadsAfterFinalize : be.finalized = false ∧ finalized.finalized = true := by decide

theorem witness_ReadsHaveNoSideEffect :
    Instr.rdCmd.isRead = true ∧ Instr.rdData.isRead = true ∧ Instr.rdStatus.isRead = true ∧
    (Instr.rdDigest 3).isRead = true ∧ Instr.rdCountLo.isRead = true ∧ Instr.rdCountHi.isRead = true ∧
    (Instr.rdReserved 63).isRead = true := by decide

theorem witness_DataReachesBufInHostOrder : le.finalized = false ∧ be.finalized = false := by decide

theorem witness_DigestWordsStoreAsDigestBytes :
    finalized.finalized = true ∧ ({ finalized with hostBe := true } : State).finalized = true := by decide

theorem witness_DigestDoesNotDependOnHostOrder : le.SameButHostOrder { be with data := 0x41424344 } := rfl

theorem witness_StepRunsTheDecodedAccess :
    (facing le (toCmd 0x200000FF)).activity = .idle ∧
    (facing le (toCmd 0x200000FF)).pending = .access ⟨.host, .word, 0x00, .write 0x200000FF⟩ :: [] ∧
    (0x00 : BitVec 8).extractLsb' 0 2 = 0 ∧ (0xFC : BitVec 8).extractLsb' 0 2 = 0 := ⟨rfl, rfl, by decide, by decide⟩

theorem witness_AccessesTakeEffectInOrder :
    le.activity = .idle ∧
    ∀ l ∈ processLines false [0x41, 0x42, 0x43, 0x44, 0x45], l.access.refusal = none :=
  ⟨rfl, by simp [processLines, ingestLines, pushW, readDigest, AsmLine.access, hostAccess, Access.refusal, Reg.offset]⟩

theorem witness_StepRunsTheDecodedRound :
    (atRound engineX2).activity ≠ .idle ∧ (atRound engineX2).engine.rnd ≠ 63 ∧
    (filled 56).beginFinalize.activity ≠ .idle := by decide

theorem witness_RunsOutsideTheSpecAreRefused (a : Access) :
    (facing le (.access a)).activity = .idle ∧ (facing le (.access a)).pending = .access a :: [] ∧
    (facing le (.accessInReset a)).pending = .accessInReset a :: [] ∧
    (facing le (.resetDuring a)).pending = .resetDuring a :: [] ∧
    (⟨.other, .word, 0x00, .read⟩ : Access).agent = .other ∧ (⟨.host, .half, 0x00, .read⟩ : Access).width ≠ .word ∧
    (⟨.host, .word, 0x01, .read⟩ : Access).offset.extractLsb' 0 2 ≠ 0 :=
  ⟨rfl, rfl, rfl, rfl, rfl, by decide, by decide⟩

theorem witness_StateIsKeptWhenNothingComes : le.activity = .idle ∧ le.pending = [] := ⟨rfl, rfl⟩

theorem witness_EveryInstructionCompletes : (atRound engineX2).activity ≠ .idle := by decide

/-- INIT and a reset with ERR_CODE = 2; an illegal word with ERR_CODE = 0. -/
theorem witness_OnlyInitAndResetClearTheError :
    (∃ t, step (facing { le with errCode := 2 } (toCmd 0x10000000)) = .next t ∧ t.errCode ≠ 2) ∧
    (facing { le with errCode := 2 } (toCmd 0x10000000)).Performs .init ∧
    (∃ t, step (facing { le with errCode := 2 } (.reset true)) = .next t ∧ t.errCode ≠ 2) ∧
    (facing { le with errCode := 2 } (.reset true)).IsReset true ∧
    ∃ t, step (facing le (toCmd 0x50000000)) = .next t ∧ t.errCode ≠ le.errCode :=
  ⟨⟨_, rfl, by decide⟩, ⟨rfl, _, _, 0x10000000, rfl, rfl, rfl, rfl⟩, ⟨_, rfl, by decide⟩, ⟨rfl, [], rfl⟩,
    ⟨_, rfl, by decide⟩⟩

/-- A FINALIZE, the last round of one, INIT, a reset, and a step that is none of these. -/
theorem witness_FinalizedFromFinalizeToInit :
    ((∃ t, step (facing le (toCmd 0x40000000)) = .next t) ∧ (facing le (toCmd 0x40000000)).Performs .finalize) ∧
    (∃ t, step { le with engine := { Engine.zero with rnd := 63 }, activity := .finalizing false } = .next t) ∧
    ((∃ t, step (facing finalized (toCmd 0x10000000)) = .next t) ∧
      (facing finalized (toCmd 0x10000000)).Performs .init) ∧
    ((∃ t, step (facing finalized (.reset false)) = .next t) ∧ (facing finalized (.reset false)).IsReset false) ∧
    (∃ t, step finalized = .next t) ∧ (∀ c, ¬ finalized.Performs c) ∧ finalized.activity ≠ .finalizing false ∧
    ∀ strap, ¬ finalized.IsReset strap :=
  ⟨⟨⟨_, rfl⟩, ⟨rfl, _, _, 0x40000000, rfl, rfl, rfl, rfl⟩⟩, ⟨_, rfl⟩,
    ⟨⟨_, rfl⟩, ⟨rfl, _, _, 0x10000000, rfl, rfl, rfl, rfl⟩⟩, ⟨⟨_, rfl⟩, ⟨rfl, [], rfl⟩⟩, ⟨_, rfl⟩,
    fun _ ⟨_, _, _, _, h, _⟩ => (List.cons_ne_nil _ _ h.symm), by decide, fun _ ⟨_, _, h⟩ => (List.cons_ne_nil _ _ h.symm)⟩

theorem witness_HostOrderFixedBetweenResets :
    (∃ t, step (facing le (.reset true)) = .next t) ∧ (facing le (.reset true)).IsReset true ∧
    (∃ t, step (facing le (toCmd 0x10000000)) = .next t) ∧ ∀ strap, ¬ (facing le (toCmd 0x10000000)).IsReset strap :=
  ⟨⟨_, rfl⟩, ⟨rfl, [], rfl⟩, ⟨_, rfl⟩, fun _ ⟨_, _, h⟩ => nomatch h⟩

/-- A reset, a write to DATA, and INGEST_WORD, which is neither. -/
theorem witness_DataIsTheLastWordWritten :
    ((∃ t, step (facing { le with data := 5 } (.reset false)) = .next t) ∧
      (facing { le with data := 5 } (.reset false)).IsReset false) ∧
    ((∃ t, step (facing le (.access (hostAccess 0x04 (.write 7)))) = .next t) ∧
      decode (hostAccess 0x04 (.write 7)).code = .wrData 7) ∧
    (∃ t, step (facing le (toCmd 0x30000003)) = .next t) ∧
    (∀ strap, ¬ (facing le (toCmd 0x30000003)).IsReset strap) ∧
    ∀ v, decode (hostAccess 0x00 (.write 0x30000003)).code ≠ .wrData v :=
  ⟨⟨⟨_, rfl⟩, ⟨rfl, [], rfl⟩⟩, ⟨⟨_, rfl⟩, rfl⟩, ⟨_, rfl⟩, fun _ ⟨_, _, h⟩ => (nomatch h), fun _ h => (nomatch h)⟩

/-- INIT; the last byte short of the block's end, the one that ends it, and any with FINALIZED = 1; a reset; an access; the last
round of an ingestion, an earlier round, a round of a FINALIZE; nothing to come. -/
theorem witness_HashAdvancesOncePerBlock :
    ((filled 60).buf.wf = true ∧ (∃ t, exec .init (filled 60) = .next t) ∧ Instr.init.command = .init) ∧
    ((filled 60).finalized = false ∧ 64 ≤ (filled 60).fill.toNat + ((filled 60).fedBy (.ingestWord 3)).length ∧
      ∃ t, exec (.ingestWord 3) (filled 60) = .next t) ∧
    ((Instr.ingestWord 3).command ≠ .init ∧ (∃ t, exec (.ingestWord 3) (filled 59) = .next t) ∧
      (filled 59).fill.toNat + ((filled 59).fedBy (.ingestWord 3)).length < 64) ∧
    (finalized.finalized = true ∧ finalized.buf.wf = true ∧ ∃ t, exec (.ingestWord 3) finalized = .next t) ∧
    ((facing le (.reset true)).IsReset true ∧ ∃ t, step (facing le (.reset true)) = .next t) ∧
    ((facing le (toCmd 0x10000000)).activity = .idle ∧ ∃ t, step (facing le (toCmd 0x10000000)) = .next t) ∧
    ((atRound { engineX2 with rnd := 63 }).activity = .ingesting [] ∧
      ∃ t, step (atRound { engineX2 with rnd := 63 }) = .next t) ∧
    ((atRound { engineX2 with rnd := 62 }).activity ≠ .idle ∧ (62 : BitVec 6) ≠ 63 ∧
      ∃ t, step (atRound { engineX2 with rnd := 62 }) = .next t) ∧
    ((∀ rest, (filled 56).beginFinalize.activity ≠ .ingesting rest) ∧ ∃ t, step (filled 56).beginFinalize = .next t) ∧
    (le.activity = .idle ∧ le.pending = [] ∧ ∃ t, step le = .next t) :=
  ⟨⟨by decide +kernel, ⟨_, rfl⟩, rfl⟩, ⟨rfl, by decide, ⟨_, rfl⟩⟩, ⟨by decide, ⟨_, rfl⟩, by decide⟩,
    ⟨rfl, by decide, ⟨_, rfl⟩⟩, ⟨⟨rfl, [], rfl⟩, ⟨_, rfl⟩⟩, ⟨rfl, ⟨_, rfl⟩⟩, ⟨rfl, ⟨_, rfl⟩⟩,
    ⟨by decide, by decide, ⟨_, rfl⟩⟩, ⟨fun _ h => (nomatch h), ⟨_, rfl⟩⟩, ⟨rfl, rfl, ⟨_, rfl⟩⟩⟩

theorem witness_StepKeepsTheInvariant :
    (facing (filled 63) (toCmd 0x50000000)).Inv ∧ ∃ t, step (facing (filled 63) (toCmd 0x50000000)) = .next t :=
  ⟨⟨by decide, .inl rfl, .inl rfl⟩, ⟨_, rfl⟩⟩

theorem witness_FinalizeRoundByRound :
    (filled 55).activity = .idle ∧ (filled 56).activity = .idle ∧ (∃ t, exec .finalize (filled 55) = .next t) ∧
    ∃ t, exec .finalize (filled 56) = .next t := ⟨rfl, rfl, ⟨_, rfl⟩, ⟨_, rfl⟩⟩

theorem witness_IngestionRoundByRound :
    (∃ km1, Instr.ingestWord 3 = .ingestWord km1) ∧ (filled 60).activity = .idle ∧ (filled 60).finalized = false ∧
    (filled 60).fill.toNat + ((filled 60).fedBy (.ingestWord 3)).length = 64 ∧
    (filled 59).fill.toNat + ((filled 59).fedBy (.ingestWord 3)).length = 63 ∧
    ∃ t, exec (.ingestWord 3) (filled 60) = .next t :=
  ⟨⟨_, rfl⟩, rfl, rfl, by decide, by decide, ⟨_, rfl⟩⟩

/-- The same two bytes, as one INGEST_WORD and as two INGEST_BYTEs. -/
theorem witness_ChunkBoundariesDoNotMatter :
    ({ le with data := 0x44434241 } : State).buf.wf = true ∧
    (∃ t, Ingests { le with data := 0x44434241 } [0x41, 0x42] t) ∧
    ∃ t', Ingests { le with data := 0x44434241 } [0x41, 0x42] t' :=
  ⟨rfl, ⟨_, .step _ [] _ _ (.ingestWord 1) (.refl _ rfl) ⟨nofun, nofun⟩ rfl⟩,
    ⟨_, .step _ [0x41] _ _ (.ingestByte 0x42)
      (.step _ [] _ _ (.ingestByte 0x41) (.refl _ rfl) ⟨nofun, nofun⟩ rfl) ⟨nofun, nofun⟩ rfl⟩⟩

/-- The empty message and a one-byte message, from reset. -/
theorem witness_WholeMessageLaw :
    le.Fresh ∧ le.buf.wf = true ∧ Ingests le [] le ∧ LeastPadding [] 55 ∧ LeastPadding [0x41] 54 ∧
    ∃ t, Ingests le [0x41] t := by
  refine ⟨⟨rfl, rfl, rfl⟩, rfl, .refl _ rfl, ⟨by decide, ?_⟩, ⟨by decide, ?_⟩, _,
    .step _ [] _ _ (.ingestByte 0x41) (.refl _ rfl) ⟨nofun, nofun⟩ rfl⟩
  · intro z h
    simp [paddedMessage, bytesLE64] at h
    omega
  · intro z h
    simp [paddedMessage, bytesLE64] at h
    omega

/-- Two instances, 256 bytes apart. -/
theorem witness_InstancesShareNoState :
    (∃ q, Platform.stepAt 1 [⟨0x40000000, le⟩, ⟨0x40000100, facing be (toCmd 0x40000000)⟩] = .next q ∧ (0 : Nat) ≠ 1) ∧
    ([⟨0x40000000, le⟩, ⟨0x40000100, be⟩] : Platform)[0]? = some ⟨0x40000000, le⟩ ∧
    windowOffset 0x40000000 0x40000100 = none := ⟨⟨_, rfl, by decide⟩, rfl, by decide⟩

end Sys2Proof.Tests
end

section
/-! The byte order and the rotation (spec/00_scope.md rules R12, R13): `rotl` is the library's rotate, `le32` is an append of
bytes, and the word view of a block is `le32` of four of its bytes. -/

namespace Sys2Proof.Machine

/-! ### Rotation (rule R12) -/

/-- The model's two branches are one formula: at amount 0 the second shift empties the word. -/
theorem rotl_eq_rotateLeft (x : Word) (s : Nat) : rotl x s = x.rotateLeft s := by
  unfold rotl
  split
  · next h => simp [BitVec.rotateLeft_def, h, BitVec.ushiftRight_eq_zero]
  · exact BitVec.rotateLeft_def.symm

@[simp] theorem rotl_zero (x : Word) : rotl x 0 = x := rfl

theorem rotl_eq_shifts (x : Word) {s : Nat} (hs : s < 32) : rotl x s = (x <<< s) ||| (x >>> (32 - s)) := by
  rw [rotl_eq_rotateLeft, BitVec.rotateLeft_def, Nat.mod_eq_of_lt hs]

theorem rotl_mod (x : Word) (s : Nat) : rotl x (s % 32) = rotl x s := by
  simp only [rotl_eq_rotateLeft, BitVec.rotateLeft_mod_eq_rotateLeft]

/-- The low `s` bits come from the top of the word; the others come from `s` places below. -/
theorem getLsbD_rotl (x : Word) {s n : Nat} (hs : s < 32) (hn : n < 32) :
    (rotl x s).getLsbD n = if n < s then x.getLsbD (32 - s + n) else x.getLsbD (n - s) := by
  rw [rotl_eq_rotateLeft, BitVec.getLsbD_rotateLeft, Nat.mod_eq_of_lt hs]
  simp [hn]

/-- A bit that stays below position 32 is read at `n + s`, one that passes it at `n + s - 32`. -/
theorem getLsbD_rotl_moved_of_lt (x : Word) {s n : Nat} (hs : s < 32) (hn : n < 32) :
    (rotl x s).getLsbD ((n + s) % 32) = x.getLsbD n := by
  rw [getLsbD_rotl x hs (Nat.mod_lt _ (by decide))]
  by_cases h : n + s < 32
  · rw [Nat.mod_eq_of_lt h, if_neg (by omega), Nat.add_sub_cancel]
  · have hwrap : (n + s) % 32 = n + s - 32 := by omega
    rw [hwrap, if_pos (by omega), show 32 - s + (n + s - 32) = n by omega]

theorem getLsbD_rotl_moved (x : Word) (s : Nat) {n : Nat} (hn : n < 32) :
    (rotl x s).getLsbD ((n + s) % 32) = x.getLsbD n := by
  rw [← rotl_mod, ← Nat.add_mod_mod]
  exact getLsbD_rotl_moved_of_lt x (Nat.mod_lt _ (by decide)) hn

/-- Settles O7: `rotl` is the library's rotate, and every clause is a lemma about it. -/
theorem rotateFollowsItsFormula : Obligations.RotateFollowsItsFormula :=
  ⟨fun x _ _ hs => rotl_eq_shifts x (Nat.lt_succ_of_le hs), rotl_zero, fun x s => (rotl_mod x s).symm,
    fun x s _ hn => getLsbD_rotl_moved x s hn⟩

/-! ### Byte order (rules R13, R101) -/

theorem getLsbD_byteOf (w : Word) (m n : Nat) : (byteOf w m).getLsbD n = (decide (n < 8) && w.getLsbD (8 * m + n)) :=
  BitVec.getLsbD_extractLsb' ..

/-- The shifted bytes do not overlap, so the disjunction is the append, the last byte on top. -/
theorem le32_eq_append (b0 b1 b2 b3 : Byte) : le32 b0 b1 b2 b3 = b3 ++ b2 ++ b1 ++ b0 := by
  have h : (b3 ++ b2 ++ b1 ++ b0).setWidth 32 =
      (b3.setWidth 32 <<< 24) ||| (b2.setWidth 32 <<< 16) ||| (b1.setWidth 32 <<< 8) ||| b0.setWidth 32 :=
    BitVec.setWidth_append_append_append_eq_shiftLeft_setWidth_or
  calc le32 b0 b1 b2 b3
    _ = (b3.setWidth 32 <<< 24) ||| (b2.setWidth 32 <<< 16) ||| (b1.setWidth 32 <<< 8) ||| b0.setWidth 32 := by
      rw [le32, BitVec.or_comm, BitVec.or_comm (_ ||| _), BitVec.or_comm (b0.setWidth 32), BitVec.or_assoc,
        BitVec.or_assoc]
    _ = b3 ++ b2 ++ b1 ++ b0 := by rw [← h, BitVec.setWidth_eq]

theorem getLsbD_le32 (b0 b1 b2 b3 : Byte) (n : Nat) :
    (le32 b0 b1 b2 b3).getLsbD n =
      if n < 8 then b0.getLsbD n else if n < 16 then b1.getLsbD (n - 8)
      else if n < 24 then b2.getLsbD (n - 16) else b3.getLsbD (n - 24) := by
  have h1 : n - 8 < 8 ↔ n < 16 := by omega
  have h2 : n - 16 < 8 ↔ n < 24 := by omega
  simp only [le32_eq_append, BitVec.getLsbD_append]
  simp only [Nat.sub_sub, Nat.reduceAdd, h1, h2]

/-- Bit `n` of byte `m` is bit `8 * m + n` of the word, which `getLsbD_le32` reads in the m-th byte. -/
theorem byteOf_le32 (b0 b1 b2 b3 : Byte) :
    byteOf (le32 b0 b1 b2 b3) 0 = b0 ∧ byteOf (le32 b0 b1 b2 b3) 1 = b1 ∧
    byteOf (le32 b0 b1 b2 b3) 2 = b2 ∧ byteOf (le32 b0 b1 b2 b3) 3 = b3 := by
  refine ⟨?_, ?_, ?_, ?_⟩ <;> refine BitVec.eq_of_getLsbD_eq fun n hn => ?_ <;> rw [getLsbD_byteOf, getLsbD_le32]
  · simp [hn]
  · simp [hn, show 8 + n < 16 by omega]
  · simp [hn, show ¬ 16 + n < 8 by omega, show 16 + n < 24 by omega]
  · simp [hn, show ¬ 24 + n < 8 by omega, show ¬ 24 + n < 16 by omega]

theorem bytesLE32_le32 (b0 b1 b2 b3 : Byte) : bytesLE32 (le32 b0 b1 b2 b3) = [b0, b1, b2, b3] := by
  obtain ⟨h0, h1, h2, h3⟩ := byteOf_le32 b0 b1 b2 b3
  rw [bytesLE32, h0, h1, h2, h3]

/-- Each bit of the word is a bit of exactly one of its bytes. -/
theorem le32_byteOf (w : Word) : le32 (byteOf w 0) (byteOf w 1) (byteOf w 2) (byteOf w 3) = w := by
  refine BitVec.eq_of_getLsbD_eq fun n hn => ?_
  simp only [getLsbD_le32, getLsbD_byteOf]
  split
  · next h => simp [h]
  split
  · next h0 h1 => simp [show n - 8 < 8 by omega, show 8 + (n - 8) = n by omega]
  split
  · next h1 h2 => simp [show n - 16 < 8 by omega, show 16 + (n - 16) = n by omega]
  · next h2 => simp [show n - 24 < 8 by omega, show 24 + (n - 24) = n by omega]

theorem getElem_words (blk : Block) (j : Nat) (hj : j < 16) :
    (words blk)[j] = le32 blk[4 * j] blk[4 * j + 1] blk[4 * j + 2] blk[4 * j + 3] :=
  Vector.getElem_ofFn hj

/-- Settles O9: the two round trips, and the word view of a block read through the first of them. -/
theorem wordsAndBytesAreLittleEndian : Obligations.WordsAndBytesAreLittleEndian :=
  ⟨bytesLE32_le32, le32_byteOf, fun blk j hj => by rw [getElem_words, bytesLE32_le32]⟩

end Sys2Proof.Machine
end


section
/-! Ingestion and commands, said once: the fields that ingestion never touches, which of its two ways INGEST takes, and that an
instruction runs its command (rule R176). -/

namespace Sys2Proof.Machine

/-! ### Ingestion, field by field -/

section
variable (s : State) (bs : List Byte)

@[simp] theorem State.ingestBytes_finalized : (s.ingestBytes bs).finalized = s.finalized := by
  rw [State.ingestBytes_frame]
@[simp] theorem State.ingestBytes_errCode : (s.ingestBytes bs).errCode = s.errCode := by
  rw [State.ingestBytes_frame]
@[simp] theorem State.ingestBytes_data : (s.ingestBytes bs).data = s.data := by
  rw [State.ingestBytes_frame]
@[simp] theorem State.ingestBytes_hostBe : (s.ingestBytes bs).hostBe = s.hostBe := by
  rw [State.ingestBytes_frame]
@[simp] theorem State.ingestBytes_faults : (s.ingestBytes bs).faults = s.faults := by
  rw [State.ingestBytes_frame]

variable {s}

theorem State.ingestOrReject_of_finalized (h : s.finalized = true) :
    s.ingestOrReject bs = s.raiseUsageError .ingestAfterFinalize := if_pos h

theorem State.ingestOrReject_of_not_finalized (h : s.finalized = false) : s.ingestOrReject bs = s.ingestBytes bs :=
  if_neg (Bool.eq_false_iff.mp h)

variable (s)

/-- An ingestion is rejected or taken (rules R148, R150, R163). -/
theorem State.ingestOrReject_cases : s.ingestOrReject bs = s.raiseUsageError .ingestAfterFinalize ∨
    s.ingestOrReject bs = s.ingestBytes bs := by
  cases h : s.finalized with
  | true => exact .inl (State.ingestOrReject_of_finalized bs h)
  | false => exact .inr (State.ingestOrReject_of_not_finalized bs h)

@[simp] theorem State.ingestOrReject_finalized : (s.ingestOrReject bs).finalized = s.finalized := by
  rcases s.ingestOrReject_cases bs with h | h <;> rw [h] <;> simp
@[simp] theorem State.ingestOrReject_data : (s.ingestOrReject bs).data = s.data := by
  rcases s.ingestOrReject_cases bs with h | h <;> rw [h] <;> simp
@[simp] theorem State.ingestOrReject_hostBe : (s.ingestOrReject bs).hostBe = s.hostBe := by
  rcases s.ingestOrReject_cases bs with h | h <;> rw [h] <;> simp

end

/-! ### An instruction and its command -/

/-- Every instruction runs its command, a WR_CMD after the port has completed the write (rule R176). -/
theorem exec_eq_exec_command (i : Instr) (s : State) :
    ∃ u, (u = s ∨ u = s.acknowledge) ∧ exec i s = exec i.command u := by
  cases i with
  | wrCmd w => exact ⟨_, .inr rfl, exec_wrCmd w s⟩
  | _ => exact ⟨s, .inl rfl, rfl⟩

/-- What an instruction ingests is the operand of its command. -/
theorem State.fedBy_cases (s : State) (i : Instr) : s.fedBy i = [] ∨
    (∃ b, i.command = .ingestByte b ∧ s.fedBy i = [b]) ∨
    ∃ km1, i.command = .ingestWord km1 ∧ s.fedBy i = s.ingestOperand km1 := by
  unfold State.fedBy
  cases i.command with
  | ingestByte b => exact .inr (.inl ⟨b, rfl, rfl⟩)
  | ingestWord km1 => exact .inr (.inr ⟨km1, rfl, rfl⟩)
  | _ => exact .inl rfl

/-- No instruction ingests more than the four bytes of DATA. -/
theorem State.fedBy_length_le (s : State) (i : Instr) : (s.fedBy i).length ≤ 4 := by
  rcases s.fedBy_cases i with h | ⟨b, -, h⟩ | ⟨km1, -, h⟩ <;> rw [h]
  · exact Nat.zero_le 4
  · exact Nat.le_add_left 1 3
  · exact List.length_take_le' ..

/-- An instruction that has bytes to ingest is one of the two ingestions. -/
theorem exec_of_fedBy_ne_nil {i : Instr} {s : State} (h : s.fedBy i ≠ []) :
    ∃ u, (u = s ∨ u = s.acknowledge) ∧ exec i s = .next (u.ingestOrReject (s.fedBy i)) := by
  obtain ⟨u, hu, hexec⟩ := exec_eq_exec_command i s
  have hoperand : ∀ km1, u.ingestOperand km1 = s.ingestOperand km1 := by rcases hu with rfl | rfl <;> simp
  refine ⟨u, hu, hexec.trans ?_⟩
  rcases s.fedBy_cases i with hfed | ⟨b, hc, hfed⟩ | ⟨km1, hc, hfed⟩
  · exact absurd hfed h
  · rw [hc, hfed]; rfl
  · rw [hc, hfed, ← hoperand]; rfl

end Sys2Proof.Machine
end

section
/-! What an effect of an instruction leaves of the fields that the whole-machine rules speak of, and the steps those rules
name: a reset, a command performed, an access taken. -/

namespace Sys2Proof.Machine

/-! ### Effects, field by field -/

section
variable {i : Instr} {u t : State}

/-- No instruction changes HOST_BE (rule R27). -/
theorem Effect.hostBe_eq (h : Effect i u t) : t.hostBe = u.hostBe := by
  cases h <;> simp

/-- Only WR_DATA changes DATA (rule R28). -/
theorem Effect.data_eq (h : Effect i u t) (hi : ∀ v, i ≠ .wrData v) : t.data = u.data := by
  cases h with
  | data v hv => exact absurd hv (hi v)
  | _ => simp

/-- Only INIT and FINALIZE change FINALIZED (rule R26). -/
theorem Effect.finalized_eq (h : Effect i u t) (hinit : i.command ≠ .init) (hfin : i.command ≠ .finalize) :
    t.finalized = u.finalized := by
  cases h with
  | init hi => exact absurd hi hinit
  | finalize hf => exact absurd hf hfin
  | _ => simp

/-- Besides INIT only an ingestion that is taken and fills BUF changes H (rule R21). -/
theorem Effect.h_eq (h : Effect i u t) (hinit : i.command ≠ .init)
    (hroom : u.finalized = true ∨ u.fill.toNat + (u.fedBy i).length < 64) : t.h = u.h := by
  cases h with
  | init hi => exact absurd hi hinit
  | ingest _ =>
    cases hf : u.finalized with
    | true => rw [State.ingestOrReject_of_finalized _ hf, State.raiseUsageError_h]
    | false =>
      rw [State.ingestOrReject_of_not_finalized _ hf]
      exact u.ingestBytes_h_of_room _ (hroom.resolve_left (Bool.eq_false_iff.mp hf))
  | _ => simp

end

/-! ### Named steps -/

section
variable {s t : State}

theorem eq_of_step_isReset {strap : Bool} (h : step s = .next t) (hreset : s.IsReset strap) :
    ∃ rest, t = (s.setPending rest).resetBy strap := by
  obtain ⟨hidle, rest, hp⟩ := hreset
  rw [step_of_reset hidle hp] at h
  cases h
  exact ⟨rest, rfl⟩

theorem eq_of_step_busy (h : step s = .next t) (hbusy : s.activity ≠ .idle) : t = s.roundDone.afterRound := by
  rw [step_of_busy hbusy] at h
  cases h
  rfl

/-- A step that takes an access has run its instruction. -/
theorem exec_of_step_access {a : Access} {rest : List Stimulus} (hidle : s.activity = .idle)
    (hp : s.pending = .access a :: rest) (h : step s = .next t) :
    exec (decode a.code) (s.setPending rest) = .next t := by
  rw [step_of_access hidle hp] at h
  cases hr : a.refusal with
  | none => rwa [hr] at h
  | some r => rw [hr] at h; cases h

/-- A CMD write runs the command its word selects, after the port has completed the write (rule R176). -/
theorem exec_of_step_performs {c : Instr} (h : step s = .next t) (hperf : s.Performs c) :
    ∃ rest, exec c (s.setPending rest).acknowledge = .next t := by
  obtain ⟨hidle, a, rest, w, hp, -, hw, rfl⟩ := hperf
  have hexec := exec_of_step_access hidle hp h
  rw [hw, exec_wrCmd] at hexec
  exact ⟨rest, hexec⟩

/-- An access performs INIT or FINALIZE only as a CMD write of that command. -/
theorem performs_of_access {a : Access} {rest : List Stimulus} {c : Instr} (hidle : s.activity = .idle)
    (hp : s.pending = .access a :: rest) (hr : a.refusal = none) (hc : c = .init ∨ c = .finalize)
    (h : (decode a.code).command = c) : s.Performs c := by
  obtain ⟨w, hw, hwc⟩ := command_of_access a hc h
  exact ⟨hidle, a, rest, w, hp, hr, hw, hwc⟩

/-- A round works on the engine alone (rule R115). -/
@[simp] theorem State.roundDone_h : s.roundDone.h = s.h := (rfl)

theorem State.afterRound_of_last (h : s.engine.rnd = 63) : s.afterRound = s.finishTransform := if_pos h

theorem State.afterRound_of_inner (h : s.engine.rnd ≠ 63) :
    s.afterRound = s.setEngine (s.engine.withRnd (s.engine.rnd + 1)) := if_neg h

/-- The last round of an ingestion's transform: its result goes to H (rule R122). -/
theorem State.finishTransform_h_of_ingesting {rest : List Byte} (h : s.activity = .ingesting rest) :
    s.finishTransform.h = s.engine.result := by
  simp [State.finishTransform, h]

/-- Of every other command in progress the result goes to HF or to DIGEST_H (rule R122). -/
theorem State.finishTransform_h_of_not_ingesting (h : ∀ rest, s.activity ≠ .ingesting rest) :
    s.finishTransform.h = s.h := by
  unfold State.finishTransform
  split
  · rfl
  · next rest ha => exact absurd ha (h rest)
  · simp
  · simp

theorem State.finishTransform_finalized_of_last (h : s.activity = .finalizing false) :
    s.finishTransform.finalized = true := by
  simp [State.finishTransform, h]

end

end Sys2Proof.Machine
end

section
/-! The invariant (spec/10_state.md rule R35): every effect of an instruction, a reset and a round keep it. -/

namespace Sys2Proof.Machine

section
variable {s t : State}

/-- The invariant speaks of BUF, ERR_CODE and the history only. -/
theorem State.Inv.congr (h : s.Inv) (hbuf : t.buf.wf = true) (herr : t.errCode = s.errCode)
    (hfaults : t.faults = s.faults) : t.Inv := by
  obtain ⟨-, hlegal, hexplained⟩ := h
  refine ⟨hbuf, by rwa [herr], ?_⟩
  unfold State.ErrCodeExplained
  rwa [herr, hfaults]

theorem State.inv_of_errCode_eq_zero (hbuf : t.buf.wf = true) (herr : t.errCode = 0) : t.Inv :=
  ⟨hbuf, .inl herr, .inl herr⟩

/-- The event of an error that ERR_CODE takes explains it; one that finds ERR_CODE taken leaves the earlier event in place. -/
theorem State.Inv.raiseUsageError (h : s.Inv) (e : UsageError) : (s.raiseUsageError e).Inv := by
  obtain ⟨hbuf, hlegal, hexplained⟩ := h
  unfold State.ErrCodeExplained at hexplained
  by_cases h0 : s.errCode = 0
  · have herr : (s.raiseUsageError e).errCode = e.code := if_pos h0
    refine ⟨hbuf, ?_, .inr ⟨⟨e, s.errCode == 0⟩, by simp, by simp [h0], herr⟩⟩
    rw [herr]
    cases e with
    | ingestAfterFinalize => exact .inr (.inl rfl)
    | illegalCommand => exact .inr (.inr rfl)
  · have herr : (s.raiseUsageError e).errCode = s.errCode := if_neg h0
    obtain ⟨ev, hmem, hlatched, hcode⟩ := hexplained.resolve_left h0
    exact ⟨hbuf, by rwa [herr], .inr ⟨ev, List.mem_append_left _ hmem, hlatched, herr.trans hcode⟩⟩

theorem State.Inv.ingestOrReject (h : s.Inv) (bs : List Byte) : (s.ingestOrReject bs).Inv := by
  rcases s.ingestOrReject_cases bs with hr | hr <;> rw [hr]
  · exact h.raiseUsageError _
  · exact h.congr (State.ingestBytes_wf h.bufCanonical bs) (by simp) (by simp)

theorem Effect.inv {i : Instr} (h : Effect i s t) (hs : s.Inv) : t.Inv := by
  cases h with
  | init _ => exact State.inv_of_errCode_eq_zero hs.bufCanonical rfl
  | ingest _ => exact hs.ingestOrReject _
  | illegal w _ => exact hs.raiseUsageError _
  | nothing => exact hs
  | _ => exact hs.congr hs.bufCanonical (by simp) (by simp)

theorem State.Inv.afterRound (h : s.Inv) : s.afterRound.Inv := by
  obtain ⟨⟨herr, -, -, -, -, hfaults⟩, hbuf, -⟩ := s.afterRound_effect
  exact h.congr (hbuf h.bufCanonical) herr hfaults

end

/-- Settles O55: each way a step can answer keeps the invariant. -/
theorem stepKeepsTheInvariant : Obligations.StepKeepsTheInvariant := by
  intro s t hs hstep
  cases step_effect hstep with
  | nothing _ _ => exact hs
  | access a rest _ _ _ _ hexec =>
    obtain ⟨u, heffect, -, hbuf, -, -, herr, -, -, hfaults⟩ := access_effect hexec
    exact heffect.inv (hs.congr (hbuf ▸ hs.bufCanonical) herr hfaults)
  | reset strap rest _ _ => exact State.inv_of_errCode_eq_zero rfl rfl
  | round _ =>
    have hround : s.roundDone.Inv := hs.congr hs.bufCanonical rfl rfl
    exact hround.afterRound

/-- Settles O54: at reset BUF lists nothing and ERR_CODE is 0. -/
theorem resetMeetsTheInvariant : Obligations.ResetMeetsTheInvariant :=
  State.inv_of_errCode_eq_zero Memory.wf_nil rfl

end Sys2Proof.Machine
end

section
/-! What every step leaves of RND, FINALIZED, HOST_BE and DATA (spec/10_state.md rules R26 to R28, R31). -/

namespace Sys2Proof.Machine

/-- Settles O45: the decoded round is the one the step runs, and short of the last the sequencer adds one to RND. -/
theorem stepRunsTheDecodedRound : Obligations.StepRunsTheDecodedRound :=
  fun s hbusy => ⟨s.roundDone, exec_decodeRound s.engine.rnd s, step_of_busy hbusy,
    fun hr => State.afterRound_of_inner (s := s.roundDone) hr⟩

/-- Settles O50: by the ways a step can answer; a FINALIZE taken whole and the last round of one both set the flag. -/
theorem finalizedFromFinalizeToInit : Obligations.FinalizedFromFinalizeToInit := by
  intro s t hstep
  refine ⟨?_, ?_, ?_⟩
  · rintro (hperf | ⟨hact, hrnd⟩)
    · obtain ⟨rest, hexec⟩ := exec_of_step_performs hstep hperf
      cases hexec
      exact State.setDigest_finalized ..
    · have hbusy : s.activity ≠ .idle := by rw [hact]; exact nofun
      rw [eq_of_step_busy hstep hbusy, State.afterRound_of_last (s := s.roundDone) hrnd]
      exact State.finishTransform_finalized_of_last hact
  · rintro (hperf | ⟨strap, hreset⟩)
    · obtain ⟨rest, hexec⟩ := exec_of_step_performs hstep hperf
      cases hexec
      exact State.startNew_finalized _
    · obtain ⟨rest, rfl⟩ := eq_of_step_isReset hstep hreset
      exact State.resetBy_finalized ..
  · intro hfin hlast hinit hreset
    cases step_effect hstep with
    | nothing _ _ => rfl
    | access a rest _ hidle hp hr hexec =>
      obtain ⟨u, heffect, -, -, -, hu, -⟩ := access_effect hexec
      rw [← hu]
      exact heffect.finalized_eq (fun h => hinit (performs_of_access hidle hp hr (.inl rfl) h))
        (fun h => hfin (performs_of_access hidle hp hr (.inr rfl) h))
    | reset strap rest hidle hp => exact absurd ⟨hidle, rest, hp⟩ (hreset strap)
    | round _ =>
      obtain ⟨-, -, hkept | ⟨-, hact, hrnd⟩⟩ := s.roundDone.afterRound_effect
      · exact hkept
      · exact absurd ⟨hact, hrnd⟩ hlast

/-- Settles O51: a reset samples the strap, and no effect of an instruction and no round touches HOST_BE. -/
theorem hostOrderFixedBetweenResets : Obligations.HostOrderFixedBetweenResets := by
  intro s t hstep
  refine ⟨fun strap hreset => ?_, fun hreset => ?_⟩
  · obtain ⟨rest, rfl⟩ := eq_of_step_isReset hstep hreset
    exact State.resetBy_hostBe ..
  · cases step_effect hstep with
    | nothing _ _ => rfl
    | access a rest _ _ _ _ hexec =>
      obtain ⟨u, heffect, -, -, -, -, -, -, hu, -⟩ := access_effect hexec
      exact heffect.hostBe_eq.trans hu
    | reset strap rest hidle hp => exact absurd ⟨hidle, rest, hp⟩ (hreset strap)
    | round _ =>
      obtain ⟨⟨-, -, hkept, -⟩, -⟩ := s.roundDone.afterRound_effect
      exact hkept

/-- Settles O52: of the effects of an instruction only that of WR_DATA touches DATA, and no round does. -/
theorem dataIsTheLastWordWritten : Obligations.DataIsTheLastWordWritten := by
  intro s t hstep
  refine ⟨fun strap hreset => ?_, fun a rest v hidle hp hdec => ?_, fun hreset hwrite => ?_⟩
  · obtain ⟨rest, rfl⟩ := eq_of_step_isReset hstep hreset
    exact State.resetBy_data ..
  · have hexec := exec_of_step_access hidle hp hstep
    rw [hdec] at hexec
    cases hexec
    exact State.setData_data ..
  · cases step_effect hstep with
    | nothing _ _ => rfl
    | access a rest _ hidle hp _ hexec =>
      obtain ⟨u, heffect, -, -, -, -, -, hu, -⟩ := access_effect hexec
      exact (heffect.data_eq fun v => hwrite a rest v hidle hp).trans hu
    | reset strap rest hidle hp => exact absurd ⟨hidle, rest, hp⟩ (hreset strap)
    | round _ =>
      obtain ⟨⟨-, hkept, -⟩, -⟩ := s.roundDone.afterRound_effect
      exact hkept

end Sys2Proof.Machine
end

section
/-! H, block by block (spec/10_state.md rule R21; spec/41_accumulator.md rule R145): an ingestion that fills BUF takes H
through one transform of the block that the pending bytes begin and the ingested ones complete. -/

namespace Sys2Proof.Machine

/-! ### The completed block -/

theorem State.bufByte_putByte {s : State} (h : s.buf.wf = true) (x : Byte) (a : Nat) :
    (s.putByte x).bufByte a = if a = s.fill.toNat then x else s.bufByte a :=
  Memory.read_write h _ _ _

@[simp] theorem State.length_pendingBytes (s : State) : s.pendingBytes.length = s.fill.toNat := by
  simp [State.pendingBytes]

/-- The byte that fills BUF makes it the 63 bytes pending, that byte, and nothing of what follows. -/
theorem State.bufBlock_putByte_of_full {s : State} (hw : s.buf.wf = true) (hf : s.fill.toNat = 63) (b : Byte)
    (bs : List Byte) : (s.putByte b).bufBlock = blockOf (s.pendingBytes ++ b :: bs) := by
  refine Vector.ext fun i hi => ?_
  rw [State.bufBlock, blockOf, Vector.getElem_ofFn, Vector.getElem_ofFn, State.bufByte_putByte hw, hf]
  dsimp only
  split
  · next h63 => subst h63; simp [hf]
  · next h63 =>
    have hlt : i < 63 := by omega
    rw [List.getD_append _ _ _ _ (by rwa [State.length_pendingBytes, hf])]
    simp [State.pendingBytes, hf, hlt]

/-- Bytes that fill BUF once: one transform, of the bytes pending and the first of those ingested (rules R122, R145). -/
theorem State.ingestBytes_h_of_block (bs : List Byte) {s : State} (hw : s.buf.wf = true)
    (h64 : 64 ≤ s.fill.toNat + bs.length) (h128 : s.fill.toNat + bs.length < 128) :
    (s.ingestBytes bs).h = transform s.h (words (blockOf (s.pendingBytes ++ bs))) := by
  have hlt := s.fill_lt
  induction bs generalizing s with
  | nil => rw [List.length_nil] at h64; omega
  | cons b bs ih =>
    rw [List.length_cons] at h64 h128
    have hnext := s.ingestByte_fill b
    rw [State.ingestBytes_cons]
    by_cases hf : s.fill.toNat = 63
    · rw [State.ingestBytes_h_of_room _ _ (by omega), State.ingestByte_of_full s b (BitVec.eq_of_toNat_eq hf),
        State.setH_h, State.bufBlock_putByte_of_full hw hf b bs]
    · have hroom : s.fill ≠ 63 := fun h => hf (congrArg BitVec.toNat h)
      rw [ih (State.ingestByte_wf hw b) (by omega) (by omega) (State.fill_lt _), State.ingestByte_pendingBytes hw b hf,
        List.append_assoc, List.singleton_append, State.ingestByte_of_room s b hroom, State.putByte_h]

/-! ### H by every instruction -/

section
variable {i : Instr} {s t : State}

theorem exec_h_of_init (h : exec i s = .next t) (hi : i.command = .init) : t.h = initialHash := by
  obtain ⟨u, -, hexec⟩ := exec_eq_exec_command i s
  rw [hi] at hexec
  cases hexec.symm.trans h
  exact State.startNew_h _

theorem exec_h_of_block (hw : s.buf.wf = true) (h : exec i s = .next t) (hf : s.finalized = false)
    (h64 : 64 ≤ s.fill.toNat + (s.fedBy i).length) :
    t.h = transform s.h (words (blockOf (s.pendingBytes ++ s.fedBy i))) := by
  have hlt := s.fill_lt
  have hlen := s.fedBy_length_le i
  have hne : s.fedBy i ≠ [] := fun h => by rw [h, List.length_nil] at h64; omega
  obtain ⟨u, hu, hexec⟩ := exec_of_fedBy_ne_nil hne
  cases hexec.symm.trans h
  rcases hu with rfl | rfl
  · rw [State.ingestOrReject_of_not_finalized _ hf, State.ingestBytes_h_of_block _ hw h64 (by omega)]
  · rw [State.ingestOrReject_of_not_finalized (s := s.acknowledge) _ hf]
    exact State.ingestBytes_h_of_block (s := s.acknowledge) _ hw h64 (by omega)

theorem exec_h_of_room (h : exec i s = .next t) (hi : i.command ≠ .init)
    (hroom : s.finalized = true ∨ s.fill.toNat + (s.fedBy i).length < 64) : t.h = s.h := by
  obtain ⟨u, rfl | rfl, heffect⟩ := exec_effect h
  · exact heffect.h_eq hi hroom
  · exact heffect.h_eq hi hroom

end

/-! ### H by every step -/

section
variable {s t : State}

/-- The last round of an ingestion's transform leaves the final addition in H (rules R121, R122). -/
theorem step_h_of_last_round {rest : List Byte} (h : step s = .next t) (ha : s.activity = .ingesting rest)
    (hr : s.engine.rnd = 63) : t.h = (s.engine.roundWith (passFunction 63) 63).result := by
  have hbusy : s.activity ≠ .idle := by rw [ha]; exact nofun
  rw [eq_of_step_busy h hbusy, State.afterRound_of_last (s := s.roundDone) hr,
    State.finishTransform_h_of_ingesting (s := s.roundDone) ha, State.roundDone, State.setEngine_engine, hr]

theorem step_h_of_other_round (h : step s = .next t) (hbusy : s.activity ≠ .idle)
    (hother : (∀ rest, s.activity ≠ .ingesting rest) ∨ s.engine.rnd ≠ 63) : t.h = s.h := by
  rw [eq_of_step_busy h hbusy]
  by_cases hr : s.engine.rnd = 63
  · rw [State.afterRound_of_last (s := s.roundDone) hr]
    exact State.finishTransform_h_of_not_ingesting (hother.resolve_right (not_not_intro hr))
  · rw [State.afterRound_of_inner (s := s.roundDone) hr, State.setEngine_h, State.roundDone_h]

end

/-- Settles O53: the lemmas above, instruction by instruction and step by step. -/
theorem hashAdvancesOncePerBlock : Obligations.HashAdvancesOncePerBlock := by
  refine ⟨fun i s t hw h => ⟨exec_h_of_init h, exec_h_of_block hw h, exec_h_of_room h⟩, fun s t h =>
    ⟨fun strap hreset => ?_, fun a rest hidle hp => exec_of_step_access hidle hp h, fun rest ha hr =>
      ⟨_, exec_decodeRound 63 s, step_h_of_last_round h ha hr⟩, step_h_of_other_round h, fun hidle hp => ?_⟩⟩
  · obtain ⟨rest, rfl⟩ := eq_of_step_isReset h hreset
    exact State.resetBy_h ..
  · cases (step_of_nothing hidle hp).symm.trans h
    rfl

end Sys2Proof.Machine
end

section
/-! What the registers answer (spec/10_state.md rules R34, R36, R38): STATUS bit by bit, and DIGESTk. -/

namespace Sys2Proof.Machine

/-! ### STATUS -/

/-- A field of at most 32 bits, placed from bit k up. -/
theorem getLsbD_placed {m k : Nat} (v : BitVec m) (h : k + m ≤ 32) (n : Nat) :
    (v.setWidth 32 <<< k).getLsbD n = (decide (k ≤ n) && v.getLsbD (n - k)) := by
  by_cases hn : n < k + m
  · by_cases hk : k ≤ n
    · simp [hk, show ¬ n < k by omega, show n < 32 by omega]
    · simp [hk, show n < k by omega]
  · have hout : v.getLsbD (n - k) = false := BitVec.getLsbD_of_ge v _ (by omega)
    simp [hout]

theorem getLsbD_placed_flag {k : Nat} (b : Bool) (h : k < 32) (n : Nat) :
    (flagWord b <<< k).getLsbD n = (decide (n = k) && b) := by
  rw [flagWord, getLsbD_placed _ h]
  by_cases hn : n = k
  · simp [hn]
  · have hout : ¬ (k ≤ n ∧ n - k = 0) := by omega
    simpa [hn] using fun hk h0 => absurd ⟨hk, h0⟩ hout

/-- The five fields of STATUS, each at its place (rule R34). -/
theorem State.getLsbD_status (s : State) (n : Nat) : s.status.getLsbD n =
    (decide (n = 0) && s.finalized || decide (n = 1) && s.errFlag || decide (n = 2) && s.hostBe
      || decide (4 ≤ n) && s.errCode.getLsbD (n - 4) || decide (8 ≤ n) && s.fill.getLsbD (n - 8)) := by
  have h0 := getLsbD_placed_flag s.finalized (k := 0) (by decide) n
  rw [BitVec.shiftLeft_zero] at h0
  simp only [State.status, BitVec.getLsbD_or, h0, getLsbD_placed_flag _ (show 1 < 32 by decide),
    getLsbD_placed_flag _ (show 2 < 32 by decide), getLsbD_placed s.errCode (show 4 + 4 ≤ 32 by decide),
    getLsbD_placed s.fill (show 8 + 6 ≤ 32 by decide)]

theorem State.status_errCode (s : State) : s.status.extractLsb' 4 4 = s.errCode := by
  refine BitVec.eq_of_getLsbD_eq fun i hi => ?_
  rw [BitVec.getLsbD_extractLsb', State.getLsbD_status]
  simp [hi, show 4 + i ≠ 1 by omega, show 4 + i ≠ 2 by omega, show ¬ 8 ≤ 4 + i by omega]

theorem State.status_fill (s : State) : s.status.extractLsb' 8 6 = s.fill := by
  refine BitVec.eq_of_getLsbD_eq fun i hi => ?_
  have hcode : s.errCode.getLsbD (8 + i - 4) = false := BitVec.getLsbD_of_ge _ _ (by omega)
  rw [BitVec.getLsbD_extractLsb', State.getLsbD_status, hcode]
  simp [hi, show 8 + i ≠ 1 by omega, show 8 + i ≠ 2 by omega]

theorem State.status_reserved (s : State) : s.status.extractLsb' 14 18 = 0 := by
  refine BitVec.eq_of_getLsbD_eq fun i hi => ?_
  have hcode : s.errCode.getLsbD (14 + i - 4) = false := BitVec.getLsbD_of_ge _ _ (by omega)
  have hfill : s.fill.getLsbD (14 + i - 8) = false := BitVec.getLsbD_of_ge _ _ (by omega)
  rw [BitVec.getLsbD_extractLsb', State.getLsbD_status, hcode, hfill]
  simp [show 14 + i ≠ 1 by omega, show 14 + i ≠ 2 by omega]

/-- Settles O36: the single bits and the two fields by `State.getLsbD_status`; a write there is WR_IGNORED. -/
theorem statusReadsItsFields : Obligations.StatusReadsItsFields := by
  intro s
  refine ⟨s.status, rfl, ?_, ?_, ?_, ?_, s.status_errCode, s.status_fill, s.status_reserved, fun _ => ⟨none, rfl⟩⟩ <;>
    rw [State.getLsbD_status] <;> simp [State.errFlag]

/-! ### DIGESTk -/

theorem hashWord_eq_getD (h : Hash) (k : BitVec 2) : hashWord h k = [h.a, h.b, h.c, h.d].getD k.toNat 0 := by
  rcases pass_cases k with rfl | rfl | rfl | rfl <;> rfl

theorem State.digestRead_of_not_finalized {s : State} (h : s.finalized = false) (k : BitVec 2) :
    s.digestRead k = 0x00000000 := if_neg (Bool.eq_false_iff.mp h)

theorem State.digestRead_of_finalized {s : State} (h : s.finalized = true) (k : BitVec 2) :
    s.digestRead k = adaptOut s.hostBe (hashWord s.digestH k) := if_pos h

theorem exec_rdDigest (s : State) (k : BitVec 2) :
    exec (.rdDigest k) s = .next { s with response := some (s.digestRead k) } := rfl

/-- Settles O37: the two values of FINALIZED, in which the gate gives 0 or the adapted word of DIGEST_H. -/
theorem digestReadsAfterFinalize : Obligations.DigestReadsAfterFinalize := by
  refine fun s k => ⟨fun hf => ?_, fun hf => ⟨_, rfl, ?_⟩⟩
  · rw [exec_rdDigest, State.digestRead_of_not_finalized hf]
  · rw [exec_rdDigest, State.digestRead_of_finalized hf, hashWord_eq_getD, adaptOut]

/-- Settles O19: the values are those `State.reset` names; with FINALIZED = 0 the gate hides DIGEST_H. -/
theorem resetLeavesTheNewState : Obligations.ResetLeavesTheNewState :=
  ⟨rfl, rfl, rfl, rfl, rfl, rfl, rfl, fun k => (digestReadsAfterFinalize State.reset k).1 rfl⟩

end Sys2Proof.Machine
end

section
/-! A command taken round by round (spec/20_memory.md rule R58; spec/70_reset_and_hazards.md rule R245): sixty-four steps of
the engine for each block end in the state of the command taken whole, since the engine's registers and the finalize copy are
released with the last transform. -/

namespace Sys2Proof.Machine

section
variable {s : State}

/-! ### The end of a transform, by the command it belongs to -/

/-- The end of an ingestion's transform (rules R121, R122). -/
theorem State.finishTransform_of_ingesting {rest : List Byte} (h : s.activity = .ingesting rest) :
    s.finishTransform = State.beginIngest rest (s.releaseEngine.setH s.engine.result) := by
  simp only [State.finishTransform, h]

/-- The end of the first of a FINALIZE's two transforms: the engine goes on with the length block (rule R155). -/
theorem State.finishTransform_of_first (h : s.activity = .finalizing true) :
    s.finishTransform = ((s.setFin ⟨s.lengthBlock, s.engine.result⟩).setEngine
      (Engine.load s.engine.result (words s.lengthBlock))).setActivity (.finalizing false) := by
  simp only [State.finishTransform, h]

/-- The end of a FINALIZE's last transform (rule R155). -/
theorem State.finishTransform_of_second (h : s.activity = .finalizing false) :
    s.finishTransform = (s.releaseInternals.setDigest s.engine.result).setActivity .idle := by
  simp only [State.finishTransform, h]

/-- Naming the activity a state already has changes nothing. -/
theorem State.setActivity_of_eq {a : Activity} (h : s.activity = a) : s.setActivity a = s := by
  subst h
  rfl

/-! ### FINALIZE -/

/-- The last transform of a FINALIZE: whatever the engine and the finalize copy held is released with its end. -/
theorem runSteps_of_last_pad_block {h : Hash} {x : MsgWords} (he : s.engine = Engine.load h x)
    (ha : s.activity = .finalizing false) :
    runSteps 64 s = .next ((s.releaseInternals.setDigest (transform h x)).setActivity .idle) := by
  obtain ⟨e, hresult, hrun⟩ := runSteps_transform he (by rw [ha]; exact nofun)
  rw [hrun, State.finishTransform_of_second (s := s.setEngine e) ha, State.setEngine_engine, hresult]
  rfl

/-- The first of a FINALIZE's two transforms leaves the engine loaded with its result and the length block. -/
theorem runSteps_of_first_pad_block {h : Hash} {x : MsgWords} (he : s.engine = Engine.load h x)
    (ha : s.activity = .finalizing true) :
    runSteps 64 s = .next (((s.setFin ⟨s.lengthBlock, transform h x⟩).setEngine
      (Engine.load (transform h x) (words s.lengthBlock))).setActivity (.finalizing false)) := by
  obtain ⟨e, hresult, hrun⟩ := runSteps_transform he (by rw [ha]; exact nofun)
  rw [hrun, State.finishTransform_of_first (s := s.setEngine e) ha, State.setEngine_engine, hresult,
    State.setEngine_lengthBlock]
  rfl

theorem State.finalHash_of_one (h : s.onePadBlock = true) :
    s.finalHash = transform s.h (words s.firstPadBlock) := if_pos h

theorem State.finalHash_of_two (h : s.onePadBlock = false) :
    s.finalHash = transform (transform s.h (words s.firstPadBlock)) (words s.lengthBlock) :=
  if_neg (Bool.eq_false_iff.mp h)

/-- What a FINALIZE leaves does not depend on the engine, the finalize copy and the activity it worked with. -/
theorem State.releaseInternals_of_internals (s : State) (c : FinalCopy) (e : Engine) (a : Activity) (h : Hash) :
    ((((s.setFin c).setEngine e).setActivity a).releaseInternals.setDigest h).setActivity .idle
      = (s.releaseInternals.setDigest h).setActivity .idle := by
  simp only [State.setFin, State.setEngine, State.setActivity, State.releaseInternals, State.setDigest]

theorem State.beginFinalize_lengthBlock (s : State) : s.beginFinalize.lengthBlock = s.lengthBlock := by
  simp [State.beginFinalize]

theorem State.beginFinalize_activity (s : State) : s.beginFinalize.activity = .finalizing (!s.onePadBlock) := (rfl)

theorem State.beginFinalize_engine (s : State) : s.beginFinalize.engine = Engine.load s.h (words s.firstPadBlock) := (rfl)

/-- A FINALIZE round by round: one transform where the padding fits in one block, two where it does not (rule R159). -/
theorem runSteps_beginFinalize (s : State) :
    runSteps (if s.onePadBlock then 64 else 128) s.beginFinalize =
      .next ((s.releaseInternals.setDigest s.finalHash).setActivity .idle) := by
  have hact := s.beginFinalize_activity
  cases hone : s.onePadBlock with
  | true =>
    rw [hone] at hact
    rw [if_pos rfl, runSteps_of_last_pad_block s.beginFinalize_engine hact, State.finalHash_of_one hone,
      State.beginFinalize, State.releaseInternals_of_internals]
  | false =>
    rw [hone] at hact
    have hfirst := runSteps_of_first_pad_block s.beginFinalize_engine hact
    rw [State.beginFinalize_lengthBlock] at hfirst
    rw [if_neg Bool.false_ne_true, runSteps_add 64 64 hfirst, runSteps_of_last_pad_block rfl rfl,
      State.finalHash_of_two hone, State.releaseInternals_of_internals, State.beginFinalize,
      State.releaseInternals_of_internals]

end

/-- Settles O56: the rounds of one or of two transforms, and the command leaves the machine idle as it found it. -/
theorem finalizeRoundByRound : Obligations.FinalizeRoundByRound := by
  intro s t hidle hexec
  cases hexec
  have hrun := runSteps_beginFinalize s
  have hsteps : (if s.onePadBlock then 64 else 128) = if s.fill.toNat ≤ 55 then 64 else 128 := by
    simp [State.onePadBlock]
  rw [hsteps] at hrun
  rw [hrun, State.setActivity_of_eq]
  simpa using hidle

/-! ### Ingestion -/

section
variable (b : Byte) (bs : List Byte) {s : State}

/-- The byte that fills BUF starts a transform; the bytes after it wait (rule R145). -/
theorem State.beginIngest_of_full (h : s.fill = 63) : State.beginIngest (b :: bs) s =
    ((s.putByte b).setEngine (Engine.load s.h (words (s.putByte b).bufBlock))).setActivity (.ingesting bs) :=
  if_pos h

theorem State.beginIngest_of_room (h : s.fill ≠ 63) :
    State.beginIngest (b :: bs) s = State.beginIngest bs (s.putByte b) := if_neg h

/-- How the sequencer ingests does not depend on the activity it starts from. -/
theorem State.beginIngest_setActivity (s : State) (a : Activity) :
    State.beginIngest bs (s.setActivity a) = State.beginIngest bs s := by
  induction bs generalizing s with
  | nil => rfl
  | cons b bs ih =>
    by_cases h : s.fill = 63
    · rw [State.beginIngest_of_full b bs h, State.beginIngest_of_full (s := s.setActivity a) b bs h]
      rfl
    · rw [State.beginIngest_of_room b bs h, State.beginIngest_of_room (s := s.setActivity a) b bs h]
      exact ih (s.putByte b)

/-- The end of an ingestion's transform forgets what the engine held (rule R29). -/
theorem State.releaseEngine_setH_of_engine (s : State) (e f : Engine) (a : Activity) (h : Hash) :
    (((s.setEngine e).setActivity a).setEngine f).releaseEngine.setH h = (s.releaseEngine.setH h).setActivity a := by
  simp only [State.setEngine, State.setActivity, State.releaseEngine, State.setH]

/-- The transform of the byte that fills BUF: sixty-four rounds, then the bytes that wait, from the state that the ingest
primitive leaves. -/
theorem runSteps_beginIngest_of_full (h : s.fill = 63) :
    runSteps 64 (State.beginIngest (b :: bs) s) = .next (State.beginIngest bs (s.ingestByte b)) := by
  rw [State.beginIngest_of_full b bs h, State.ingestByte_of_full s b h]
  obtain ⟨e, hresult, hrun⟩ := runSteps_transform (s := ((s.putByte b).setEngine
    (Engine.load s.h (words (s.putByte b).bufBlock))).setActivity (.ingesting bs)) rfl nofun
  rw [hrun, State.finishTransform_of_ingesting rfl, State.setEngine_engine, hresult,
    State.releaseEngine_setH_of_engine, State.beginIngest_setActivity]

/-- An ingestion round by round, for any number of bytes: one transform for each block they complete. -/
theorem runSteps_beginIngest (s : State) :
    runSteps (64 * ((s.fill.toNat + bs.length) / 64)) (State.beginIngest bs s) =
      .next ((s.ingestBytes bs).setActivity .idle) := by
  induction bs generalizing s with
  | nil =>
    rw [List.length_nil, Nat.add_zero, Nat.div_eq_of_lt s.fill_lt]
    rfl
  | cons b bs ih =>
    have hlt := s.fill_lt
    have hnext := s.ingestByte_fill b
    have hrest := ih (s.ingestByte b)
    rw [List.length_cons, State.ingestBytes_cons]
    by_cases h : s.fill = 63
    · have h63 : s.fill.toNat = 63 := congrArg BitVec.toNat h
      have hsteps : 64 * ((s.fill.toNat + (bs.length + 1)) / 64)
          = 64 + 64 * (((s.ingestByte b).fill.toNat + bs.length) / 64) := by omega
      rw [hsteps, runSteps_add 64 _ (runSteps_beginIngest_of_full b bs h), hrest]
    · have h63 : s.fill.toNat ≠ 63 := fun hc => h (BitVec.eq_of_toNat_eq hc)
      have hsum : s.fill.toNat + (bs.length + 1) = (s.ingestByte b).fill.toNat + bs.length := by omega
      rw [hsum, State.beginIngest_of_room b bs h, ← State.ingestByte_of_room s b h, hrest]

/-- With FINALIZED = 0 an ingestion command ingests what it is fed (rules R148, R150). -/
theorem exec_of_ingestion {i : Instr} (hi : (∃ b, i = .ingestByte b) ∨ ∃ km1, i = .ingestWord km1)
    (hf : s.finalized = false) : exec i s = .next (s.ingestBytes (s.fedBy i)) := by
  rw [← State.ingestOrReject_of_not_finalized _ hf]
  rcases hi with ⟨b, rfl⟩ | ⟨km1, rfl⟩
  · rfl
  · rfl

end

/-- Settles O57: an ingestion command is the ingest primitive on the bytes it is fed, and leaves the machine idle. -/
theorem ingestionRoundByRound : Obligations.IngestionRoundByRound := by
  intro i s t hi hidle hf hexec
  cases (exec_of_ingestion hi hf).symm.trans hexec
  rw [runSteps_beginIngest, State.setActivity_of_eq]
  rw [State.ingestBytes_frame]
  exact hidle

end Sys2Proof.Machine
end

section
/-! What an ingestion writes in BUF (spec/41_accumulator.md rule R150): its bytes from BUF[FILL] on, across the end of the block,
and nothing else. -/

namespace Sys2Proof.Machine

section
variable (bs : List Byte) {s : State}

/-- The bytes of BUF that no ingested byte goes to stay. -/
theorem State.ingestBytes_bufByte_of_outside {a : Nat} (hw : s.buf.wf = true)
    (ha : ∀ m, m < bs.length → a ≠ (s.fill.toNat + m) % 64) : (s.ingestBytes bs).bufByte a = s.bufByte a := by
  induction bs generalizing s with
  | nil => rfl
  | cons b bs ih =>
    have hnext := s.ingestByte_fill b
    have hfirst : a ≠ s.fill.toNat := by
      have h0 := ha 0 (Nat.succ_pos _)
      rwa [Nat.add_zero, Nat.mod_eq_of_lt s.fill_lt] at h0
    have hrest : ∀ m, m < bs.length → a ≠ ((s.ingestByte b).fill.toNat + m) % 64 := by
      intro m hm
      have hsucc := ha (m + 1) (Nat.succ_lt_succ hm)
      omega
    rw [State.ingestBytes_cons, ih (State.ingestByte_wf hw b) hrest, State.ingestByte_bufByte hw, if_neg hfirst]

/-- At most a block of bytes: byte m goes to BUF[FILL + m], past the end of the block to its start. -/
theorem State.ingestBytes_bufByte_of_ingested {m : Nat} (hw : s.buf.wf = true) (h64 : bs.length ≤ 64)
    (hm : m < bs.length) : (s.ingestBytes bs).bufByte ((s.fill.toNat + m) % 64) = bs[m] := by
  induction bs generalizing s m with
  | nil => exact absurd hm (Nat.not_lt_zero m)
  | cons b bs ih =>
    have hlt := s.fill_lt
    have hnext := s.ingestByte_fill b
    rw [List.length_cons] at h64
    rw [State.ingestBytes_cons]
    cases m with
    | zero =>
      rw [Nat.add_zero, Nat.mod_eq_of_lt hlt, State.ingestBytes_bufByte_of_outside bs (State.ingestByte_wf hw b)
        (fun m hm => by omega), State.ingestByte_bufByte hw, if_pos rfl, List.getElem_cons_zero]
    | succ m =>
      have hplace : (s.fill.toNat + (m + 1)) % 64 = ((s.ingestByte b).fill.toNat + m) % 64 := by omega
      rw [hplace, ih (State.ingestByte_wf hw b) (by omega) (Nat.lt_of_succ_lt_succ hm), List.getElem_cons_succ]

end

/-! ### The operand of INGEST_WORD -/

section
variable (s : State) (km1 : BitVec 2)

@[simp] theorem State.length_ingestOperand : (s.ingestOperand km1).length = km1.toNat + 1 := by
  have hlt := km1.isLt
  rw [State.ingestOperand, List.length_take, byteCount]
  exact Nat.min_eq_left hlt

theorem getElem_bytesLE32 (w : Word) {m : Nat} (hm : m < 4) : (bytesLE32 w)[m]'hm = byteOf w m := by
  match m, hm with
  | 0, _ | 1, _ | 2, _ | 3, _ => rfl

/-- Byte m of the operand is byte m of `adapt_in(DATA)` (rules R150, R172). -/
theorem State.getElem_ingestOperand {m : Nat} (hm : m < (s.ingestOperand km1).length) :
    (s.ingestOperand km1)[m] = byteOf (adaptIn s.hostBe s.data) m := by
  have h4 : m < 4 := by
    have hlt := km1.isLt
    rw [State.length_ingestOperand] at hm
    omega
  simp only [State.ingestOperand, List.getElem_take]
  exact getElem_bytesLE32 _ h4

end

/-- Settles O27: the ingested bytes, the bytes of BUF outside them, the frame of an ingestion, and H where no block is
completed. -/
theorem ingestWordWritesOnlyItsBytes : Obligations.IngestWordWritesOnlyItsBytes := by
  intro s t km1 hw hf hexec
  have hlt := km1.isLt
  have hlen := s.length_ingestOperand km1
  have hingest : exec (.ingestWord km1) s = .next (s.ingestBytes (s.ingestOperand km1)) :=
    exec_of_ingestion (.inr ⟨km1, rfl⟩) hf
  cases hingest.symm.trans hexec
  refine ⟨fun m hm => ?_, fun a ha => ?_, s.ingestBytes_frame _, fun hroom => ?_⟩
  · rw [State.ingestBytes_bufByte_of_ingested _ hw (by omega) (by omega), State.getElem_ingestOperand]
    rfl
  · exact State.ingestBytes_bufByte_of_outside _ hw fun m hm => ha m (by omega)
  · exact s.ingestBytes_h_of_room _ (by omega)

end Sys2Proof.Machine
end

section
/-! The host's accesses at the port (spec/20_memory.md rules R55, R56, R59, R63): which are refused, that an admitted one is taken
and its instruction run, that what is still to come makes no difference to an instruction, and that a read has no side effect. -/

namespace Sys2Proof.Machine

/-! ### Admission (rules R56, R63) -/

section
variable {a : Access}

theorem Access.refusal_of_other (h : a.agent = .other) : a.refusal = some .secondAgent := if_pos h

theorem Access.refusal_of_narrow (h : a.agent = .host) (hw : a.width ≠ .word) :
    a.refusal = some .accessNotWordWide := by
  simp [Access.refusal, h, hw]

theorem Access.refusal_of_unaligned (h : a.agent = .host) (hw : a.width = .word)
    (ho : a.offset.extractLsb' 0 2 ≠ 0) : a.refusal = some .accessUnaligned := by
  simpa [Access.refusal, h, hw] using ho

theorem Access.refusal_of_admitted (h : a.agent = .host) (hw : a.width = .word)
    (ho : a.offset.extractLsb' 0 2 = 0) : a.refusal = none := by
  simp [Access.refusal, h, hw, ho]

variable {s : State} {rest : List Stimulus} (hidle : s.activity = .idle) (hp : s.pending = .access a :: rest)
include hidle hp

theorem step_of_admitted (h : a.refusal = none) : step s = exec (decode a.code) (s.setPending rest) := by
  rw [step_of_access hidle hp, h]

theorem step_of_refused {r : Refusal} (h : a.refusal = some r) : step s = .refused r := by
  rw [step_of_access hidle hp, h]

end

/-- Settles O43: an access of the host, word wide and aligned, is admitted. -/
theorem stepRunsTheDecodedAccess : Obligations.StepRunsTheDecodedAccess :=
  fun _ _ _ _ hidle hp ho => step_of_admitted hidle hp (Access.refusal_of_admitted rfl rfl ho)

/-- Settles O46: the checks of the port in their order, and the two stimuli that a reset meets. -/
theorem runsOutsideTheSpecAreRefused : Obligations.RunsOutsideTheSpecAreRefused := by
  refine fun s a rest hidle => ⟨fun hp => ⟨fun h => ?_, fun h hw => ?_, fun h hw ho => ?_⟩,
    step_of_accessInReset hidle, step_of_resetDuring hidle⟩
  · exact step_of_refused hidle hp (Access.refusal_of_other h)
  · exact step_of_refused hidle hp (Access.refusal_of_narrow h hw)
  · exact step_of_refused hidle hp (Access.refusal_of_unaligned h hw ho)

/-! ### Reads (rule R59) -/

/-- A read answers one word, whatever the port answered before, and leaves everything else. -/
theorem exec_of_isRead {i : Instr} (h : i.isRead = true) (s : State) :
    ∃ v : Word, ∀ r, exec i { s with response := r } = .next { s with response := some v } := by
  cases i with
  | rdCmd | rdReserved _ => exact ⟨0, fun _ => rfl⟩
  | rdData => exact ⟨s.data, fun _ => rfl⟩
  | rdStatus => exact ⟨s.status, fun _ => rfl⟩
  | rdDigest k => exact ⟨s.digestRead k, fun _ => rfl⟩
  | rdCountLo => exact ⟨s.countLo, fun _ => rfl⟩
  | rdCountHi => exact ⟨s.countHi, fun _ => rfl⟩
  | _ => cases h

/-- Settles O39: the read before and the read after answer by `exec_of_isRead`. -/
theorem readsHaveNoSideEffect : Obligations.ReadsHaveNoSideEffect := by
  intro i s h
  obtain ⟨v, hread⟩ := exec_of_isRead h s
  exact ⟨v, hread s.response, hread (some v)⟩

/-! ### What is still to come -/

section
variable (s : State) (q : List Stimulus)

theorem State.putByte_setPending (x : Byte) : (s.setPending q).putByte x = (s.putByte x).setPending q := (rfl)

theorem State.releaseEngine_setH_setPending (h : Hash) :
    (s.setPending q).releaseEngine.setH h = (s.releaseEngine.setH h).setPending q := by
  simp only [State.setPending, State.releaseEngine, State.setH]

theorem State.releaseInternals_setDigest_setPending (h : Hash) :
    (s.setPending q).releaseInternals.setDigest h = (s.releaseInternals.setDigest h).setPending q := by
  simp only [State.setPending, State.releaseInternals, State.setDigest]

theorem State.ingestByte_setPending (x : Byte) :
    (s.setPending q).ingestByte x = (s.ingestByte x).setPending q := by
  by_cases h : s.fill = 63
  · rw [State.ingestByte_of_full s x h, State.ingestByte_of_full (s.setPending q) x h, State.putByte_setPending,
      State.setPending_bufBlock, State.setPending_h, State.releaseEngine_setH_setPending]
  · rw [State.ingestByte_of_room s x h, State.ingestByte_of_room (s.setPending q) x h, State.putByte_setPending]

theorem State.ingestBytes_setPending (bs : List Byte) :
    (s.setPending q).ingestBytes bs = (s.ingestBytes bs).setPending q := by
  induction bs generalizing s with
  | nil => rfl
  | cons b bs ih => rw [State.ingestBytes_cons, State.ingestByte_setPending, ih, State.ingestBytes_cons]

theorem State.ingestOrReject_setPending (bs : List Byte) :
    (s.setPending q).ingestOrReject bs = (s.ingestOrReject bs).setPending q := by
  cases h : s.finalized with
  | true =>
    rw [State.ingestOrReject_of_finalized bs h, State.ingestOrReject_of_finalized (s := s.setPending q) bs h]
    rfl
  | false =>
    rw [State.ingestOrReject_of_not_finalized bs h,
      State.ingestOrReject_of_not_finalized (s := s.setPending q) bs h, State.ingestBytes_setPending]

end

/-- An instruction completes, and neither looks at what is still to come nor touches it. -/
def IgnoresPending (i : Instr) : Prop :=
  ∀ s : State, ∃ t : State, ∀ q, exec i (s.setPending q) = .next (t.setPending q)

theorem ignoresPending_ingestByte (b : Byte) : IgnoresPending (.ingestByte b) :=
  fun s => ⟨s.ingestOrReject [b], fun q => congrArg _ (s.ingestOrReject_setPending q _)⟩

theorem ignoresPending_ingestWord (km1 : BitVec 2) : IgnoresPending (.ingestWord km1) :=
  fun s => ⟨s.ingestOrReject (s.ingestOperand km1), fun q => congrArg _ (s.ingestOrReject_setPending q _)⟩

theorem ignoresPending_finalize : IgnoresPending .finalize :=
  fun s => ⟨s.releaseInternals.setDigest s.finalHash, fun q =>
    congrArg _ (s.releaseInternals_setDigest_setPending q _)⟩

theorem ignoresPending_decodeCmd (w : Word) : IgnoresPending (decodeCmd w) :=
  caseCmd_induction (P := IgnoresPending) w (fun s => ⟨s, fun _ => rfl⟩) (fun s => ⟨s.startNew, fun _ => rfl⟩)
    ignoresPending_ingestByte ignoresPending_ingestWord ignoresPending_finalize
    (fun s => ⟨s.raiseUsageError .illegalCommand, fun _ => rfl⟩)

theorem ignoresPending (i : Instr) : IgnoresPending i := by
  cases i with
  | nop => exact fun s => ⟨s, fun _ => rfl⟩
  | init => exact fun s => ⟨s.startNew, fun _ => rfl⟩
  | ingestByte b => exact ignoresPending_ingestByte b
  | ingestWord km1 => exact ignoresPending_ingestWord km1
  | finalize => exact ignoresPending_finalize
  | illegal w => exact fun s => ⟨s.raiseUsageError .illegalCommand, fun _ => rfl⟩
  | rdCmd => exact fun s => ⟨s.respond 0, fun _ => rfl⟩
  | wrCmd w =>
    intro s
    obtain ⟨t, ht⟩ := ignoresPending_decodeCmd w s.acknowledge
    exact ⟨t, fun q => (exec_wrCmd w _).trans (ht q)⟩
  | rdData => exact fun s => ⟨s.respond s.data, fun _ => rfl⟩
  | wrData v => exact fun s => ⟨s.acknowledge.setData v, fun _ => rfl⟩
  | rdStatus => exact fun s => ⟨s.respond s.status, fun _ => rfl⟩
  | rdDigest k => exact fun s => ⟨s.respond (s.digestRead k), fun _ => rfl⟩
  | rdCountLo => exact fun s => ⟨s.respond s.countLo, fun _ => rfl⟩
  | rdCountHi => exact fun s => ⟨s.respond s.countHi, fun _ => rfl⟩
  | rdReserved off => exact fun s => ⟨s.respond 0, fun _ => rfl⟩
  | wrIgnored off v => exact fun s => ⟨s.acknowledge, fun _ => rfl⟩
  | ff j => exact fun s => ⟨s.setEngine (s.engine.roundWith funF (0b00#2 ++ j)), fun _ => rfl⟩
  | gg j => exact fun s => ⟨s.setEngine (s.engine.roundWith funG (0b01#2 ++ j)), fun _ => rfl⟩
  | hh j => exact fun s => ⟨s.setEngine (s.engine.roundWith funH (0b10#2 ++ j)), fun _ => rfl⟩
  | ii j => exact fun s => ⟨s.setEngine (s.engine.roundWith funI (0b11#2 ++ j)), fun _ => rfl⟩

/-! ### No instruction begins or ends a command in progress (rule R58) -/

@[simp] theorem State.ingestBytes_activity (s : State) (bs : List Byte) :
    (s.ingestBytes bs).activity = s.activity := by
  rw [State.ingestBytes_frame]

@[simp] theorem State.ingestOrReject_activity (s : State) (bs : List Byte) :
    (s.ingestOrReject bs).activity = s.activity := by
  rcases s.ingestOrReject_cases bs with h | h <;> rw [h] <;> simp

theorem Effect.activity_eq {i : Instr} {u t : State} (h : Effect i u t) : t.activity = u.activity := by
  cases h <;> simp

theorem exec_activity {i : Instr} {s t : State} (h : exec i s = .next t) : t.activity = s.activity := by
  obtain ⟨u, rfl | rfl, heffect⟩ := exec_effect h
  · exact heffect.activity_eq
  · exact heffect.activity_eq

/-! ### Accesses in order (rules R55, R63) -/

theorem runSteps_succ_of_step {s t : State} (h : step s = .next t) (k : Nat) :
    runSteps (k + 1) s = runSteps k t := by
  simp only [runSteps, h]

theorem runInstrs_cons_of_exec {i : Instr} {s t : State} (h : exec i s = .next t) (is : List Instr) :
    runInstrs (i :: is) s = runInstrs is t := by
  simp only [runInstrs, h]

/-- Each step takes one line's access and runs its instruction; the lines after it make no difference to it. -/
theorem runSteps_asStimuli (lines : List AsmLine) {s : State} (hidle : s.activity = .idle)
    (hadmitted : ∀ l ∈ lines, l.access.refusal = none) : ∃ t,
    runSteps lines.length (s.setPending (asStimuli lines)) = .next t ∧
    runInstrs (instrsOf lines) (s.setPending []) = .next t := by
  induction lines generalizing s with
  | nil => exact ⟨_, rfl, rfl⟩
  | cons l lines ih =>
    obtain ⟨u, hexec⟩ := ignoresPending (decode l.access.code) s
    have hstep : step (s.setPending (asStimuli (l :: lines))) = .next (u.setPending (asStimuli lines)) :=
      (step_of_admitted (s := s.setPending (asStimuli (l :: lines))) hidle rfl
        (hadmitted l List.mem_cons_self)).trans (hexec _)
    have huidle : u.activity = .idle := (exec_activity (hexec [])).trans hidle
    obtain ⟨t, hsteps, hinstrs⟩ := ih huidle fun l' hl' => hadmitted l' (List.mem_cons_of_mem l hl')
    exact ⟨t, (runSteps_succ_of_step hstep _).trans hsteps, (runInstrs_cons_of_exec (hexec []) _).trans hinstrs⟩

/-- Settles O44, by induction on the lines. -/
theorem accessesTakeEffectInOrder : Obligations.AccessesTakeEffectInOrder :=
  fun lines _ hidle hadmitted => runSteps_asStimuli lines hidle hadmitted

end Sys2Proof.Machine
end

section
/-! The encoder against the decoders of the three formats (spec/30_encoding.md rules R72, R73, R80, R85): which operation each
code selects, and that encoding and decoding undo each other. -/

namespace Sys2Proof.Machine

/-! ### The ROUND format (rule R85) -/

theorem passOf_append (p : BitVec 2) (j : BitVec 4) : passOf (p ++ j) = p := BitVec.extractLsb'_append_eq_left

theorem posOf_append (p : BitVec 2) (j : BitVec 4) : posOf (p ++ j) = j := BitVec.extractLsb'_append_eq_right

theorem decodeRound_append (p : BitVec 2) (j : BitVec 4) : decodeRound (p ++ j) =
    if p = 0 then .ff j else if p = 1 then .gg j else if p = 2 then .hh j else .ii j := by
  rw [decodeRound_eq, passOf_append, posOf_append]

/-- Settles O6: the four passes, each with every position. -/
theorem roundIndexSelectsOperation : Obligations.RoundIndexSelectsOperation :=
  fun j => ⟨decodeRound_append 0 j, decodeRound_append 1 j, decodeRound_append 2 j, decodeRound_append 3 j⟩

theorem encode_decodeRound (rnd : BitVec 6) : encode (decodeRound rnd) = .round rnd := by
  rw [← pass_append_pos rnd, decodeRound_append]
  rcases pass_cases (passOf rnd) with h | h | h | h <;> rw [h] <;> rfl

/-! ### The BUS format (rule R80) -/

theorem descriptor_getLsbD_six (isWrite : Bool) (off : BitVec 6) : (descriptor isWrite off).getLsbD 6 = isWrite := by
  unfold descriptor
  rw [BitVec.getLsbD_append]
  cases isWrite <;> rfl

theorem descriptor_offset (isWrite : Bool) (off : BitVec 6) : (descriptor isWrite off).extractLsb' 0 6 = off :=
  BitVec.extractLsb'_append_eq_right

/-- A descriptor is its W bit followed by its OFF field. -/
theorem descriptor_of_fields (desc : BitVec 7) : descriptor (desc.getLsbD 6) (desc.extractLsb' 0 6) = desc := by
  have hbit : BitVec.ofBool (desc.getLsbD 6) = desc.extractLsb' 6 1 := by
    apply BitVec.eq_of_getLsbD_eq
    intro i hi
    obtain rfl : i = 0 := by omega
    simp
  rw [descriptor, hbit]
  exact BitVec.extractLsb'_append_extractLsb' (w := 1) (len := 6)

theorem decodeBus_read (off : BitVec 6) (v : Word) : decodeBus (descriptor false off) v =
    if off = 0 then .rdCmd else if off = 1 then .rdData else if off = 2 then .rdStatus
    else if off.extractLsb' 2 4 = 1 then .rdDigest (off.extractLsb' 0 2)
    else if off = 8 then .rdCountLo else if off = 9 then .rdCountHi else .rdReserved off := by
  rw [decodeBus, descriptor_getLsbD_six, descriptor_offset]
  rfl

theorem decodeBus_write (off : BitVec 6) (v : Word) : decodeBus (descriptor true off) v =
    if off = 0 then .wrCmd v else if off = 1 then .wrData v else .wrIgnored off v := by
  rw [decodeBus, descriptor_getLsbD_six, descriptor_offset]
  rfl

theorem decodeBus_rdDigest (k : BitVec 2) (v : Word) :
    decodeBus (descriptor false (0b0001#4 ++ k)) v = .rdDigest k := by
  rcases pass_cases k with rfl | rfl | rfl | rfl <;> rfl

theorem decodeBus_rdReserved {off : BitVec 6} (h : off = 3 ∨ 10 ≤ off.toNat) (v : Word) :
    decodeBus (descriptor false off) v = .rdReserved off := by
  rcases h with rfl | h
  · rfl
  · have hdigest : ¬ off.extractLsb' 2 4 = 1 := by
      rw [extract_eq_iff]
      show ¬ off.toNat / 4 % 16 = 1
      omega
    rw [decodeBus_read, if_neg (by bv_omega), if_neg (by bv_omega), if_neg (by bv_omega), if_neg hdigest,
      if_neg (by bv_omega), if_neg (by bv_omega)]

theorem decodeBus_wrIgnored {off : BitVec 6} (h : 2 ≤ off.toNat) (v : Word) :
    decodeBus (descriptor true off) v = .wrIgnored off v := by
  rw [decodeBus_write, if_neg (by bv_omega), if_neg (by bv_omega)]

/-- OFF drops the two alignment bits of the offset. -/
theorem wordOffset_append (agent : Agent) (width : Width) (off : BitVec 6) (dir : Direction) :
    Access.wordOffset ⟨agent, width, off ++ 0b00#2, dir⟩ = off := BitVec.extractLsb'_append_eq_left

/-- Settles O5: the descriptor of an access, then the lines of rule R80. -/
theorem accessDescriptorsSelectOperations : Obligations.AccessDescriptorsSelectOperations := by
  refine ⟨fun off v => ⟨?_, ?_⟩, fun v => ⟨rfl, rfl, rfl, rfl, rfl, fun k => decodeBus_rdDigest k v, rfl, rfl,
    fun off h => decodeBus_rdReserved h v, fun off h => decodeBus_wrIgnored h v⟩⟩
  · rw [Access.code, wordOffset_append]; rfl
  · rw [Access.code, wordOffset_append]; rfl

theorem encode_decodeBus_write (off : BitVec 6) (v : Word) :
    encode (decodeBus (descriptor true off) v) = .bus (descriptor true off) v := by
  rw [decodeBus_write]
  split
  · next h => subst h; rfl
  split
  · next h => subst h; rfl
  · rfl

theorem encode_decodeBus_read (off : BitVec 6) (v : Word) :
    encode (decodeBus (descriptor false off) v) = .bus (descriptor false off) 0 := by
  rw [decodeBus_read]
  split
  · next h => subst h; rfl
  split
  · next h => subst h; rfl
  split
  · next h => subst h; rfl
  split
  · next h =>
    have hoff : off.extractLsb' 2 4 ++ off.extractLsb' 0 2 = off := BitVec.extractLsb'_append_extractLsb'
    rw [h] at hoff
    exact congrArg (fun o => Code.bus (descriptor false o) 0) hoff
  split
  · next h => subst h; rfl
  split
  · next h => subst h; rfl
  · rfl

theorem encode_decodeBus (desc : BitVec 7) (v : Word) :
    encode (decodeBus desc v) = .bus desc (if desc.getLsbD 6 then v else 0) := by
  rw [← descriptor_of_fields desc, descriptor_getLsbD_six]
  cases desc.getLsbD 6 with
  | true => exact encode_decodeBus_write _ v
  | false => exact encode_decodeBus_read _ v

/-! ### The CMD format (rules R72, R73) -/

/-- A word's upper part as a number fixes the word up to its low field. -/
theorem toNat_div_eq_iff {n k : Nat} (w : BitVec (n + k)) (c : BitVec n) :
    w.toNat / 2 ^ k = c.toNat ↔ c ++ w.extractLsb' 0 k = w := by
  have upper : w.toNat / 2 ^ k = (w.extractLsb' k n).toNat := by
    rw [BitVec.extractLsb'_toNat, Nat.shiftRight_eq_div_pow, Nat.mod_eq_of_lt]
    exact Nat.div_lt_of_lt_mul (by rw [← Nat.pow_add, Nat.add_comm k n]; exact w.isLt)
  rw [upper, BitVec.toNat_inj]
  constructor
  · rintro rfl
    exact BitVec.extractLsb'_append_extractLsb'
  · intro h
    rw [← h, BitVec.extractLsb'_append_eq_left]

theorem toNat_append_div {n k : Nat} (c : BitVec n) (x : BitVec k) : (c ++ x).toNat / 2 ^ k = c.toNat := by
  rw [toNat_div_eq_iff, BitVec.extractLsb'_append_eq_right]

/-- INGEST_BYTE's word: its match value above its operand. -/
theorem ingestByte_word (b : Byte) : (0x20000000 ||| b.setWidth 32 : Word) = 0x200000#24 ++ b := by
  rw [← BitVec.setWidth_eq (0x200000#24 ++ b), BitVec.setWidth_append_eq_shiftLeft_setWidth_or]
  rfl

/-- INGEST_WORD's word: its match value above its operand. -/
theorem ingestWord_word (km1 : BitVec 2) : (0x30000000 ||| km1.setWidth 32 : Word) = 0xC000000#30 ++ km1 := by
  rw [← BitVec.setWidth_eq (0xC000000#30 ++ km1), BitVec.setWidth_append_eq_shiftLeft_setWidth_or]
  rfl

theorem byteRow_iff (w : Word) :
    w.toNat / 2 ^ 8 = 0x200000 ↔ (0x20000000 ||| (w.extractLsb' 0 8).setWidth 32 : Word) = w := by
  rw [ingestByte_word]
  exact toNat_div_eq_iff (n := 24) (k := 8) w 0x200000

theorem wordRow_iff (w : Word) :
    w.toNat / 2 ^ 2 = 0xC000000 ↔ (0x30000000 ||| (w.extractLsb' 0 2).setWidth 32 : Word) = w := by
  rw [ingestWord_word]
  exact toNat_div_eq_iff (n := 30) (k := 2) w 0xC000000

theorem decodeCmd_eq (w : Word) : decodeCmd w =
    if w.toNat = 0x00000000 then .nop
    else if w.toNat = 0x10000000 then .init
    else if w.toNat / 2 ^ 8 = 0x200000 then .ingestByte (w.extractLsb' 0 8)
    else if w.toNat / 2 ^ 2 = 0xC000000 then .ingestWord (w.extractLsb' 0 2)
    else if w.toNat = 0x40000000 then .finalize
    else .illegal w := caseCmd_eq w _ _ _ _ _ _

theorem decodeCmd_ingestByte (b : Byte) : decodeCmd (0x20000000 ||| b.setWidth 32) = .ingestByte b := by
  have hrow : (0x200000#24 ++ b).toNat / 2 ^ 8 = 0x200000 := toNat_append_div 0x200000#24 b
  rw [ingestByte_word, decodeCmd_eq, if_neg (by omega), if_neg (by omega), if_pos hrow,
    BitVec.extractLsb'_append_eq_right]

theorem decodeCmd_ingestWord (km1 : BitVec 2) : decodeCmd (0x30000000 ||| km1.setWidth 32) = .ingestWord km1 := by
  have hrow : (0xC000000#30 ++ km1).toNat / 2 ^ 2 = 0xC000000 := toNat_append_div 0xC000000#30 km1
  rw [ingestWord_word, decodeCmd_eq, if_neg (by omega), if_neg (by omega), if_neg (by omega), if_pos hrow,
    BitVec.extractLsb'_append_eq_right]

theorem decodeCmd_illegal {w : Word} (h : isCommandWord w = false) : decodeCmd w = .illegal w := by
  rw [← Bool.not_eq_true, isCommandWord_iff] at h
  simp only [not_or] at h
  obtain ⟨hnop, hinit, hbyte, hword, hfin⟩ := h
  rw [decodeCmd_eq, if_neg hnop, if_neg hinit, if_neg hbyte, if_neg hword, if_neg hfin]

theorem encode_decodeCmd (w : Word) : encode (decodeCmd w) = .cmd w := by
  rw [decodeCmd_eq]
  split
  · next h => exact congrArg Code.cmd (BitVec.eq_of_toNat_eq h.symm)
  split
  · next h => exact congrArg Code.cmd (BitVec.eq_of_toNat_eq h.symm)
  split
  · next h => exact congrArg Code.cmd ((byteRow_iff w).mp h)
  split
  · next h => exact congrArg Code.cmd ((wordRow_iff w).mp h)
  split
  · next h => exact congrArg Code.cmd (BitVec.eq_of_toNat_eq h.symm)
  · rfl

/-! ### Encoding and decoding undo each other -/

theorem decode_encode {i : Instr} (hi : i.wf = true) : decode (encode i) = i := by
  cases i with
  | nop => rfl
  | init => rfl
  | ingestByte b => exact decodeCmd_ingestByte b
  | ingestWord km1 => exact decodeCmd_ingestWord km1
  | finalize => rfl
  | illegal w => exact decodeCmd_illegal (by simpa [Instr.wf] using hi)
  | rdCmd => rfl
  | wrCmd w => rfl
  | rdData => rfl
  | wrData v => rfl
  | rdStatus => rfl
  | rdDigest k => exact decodeBus_rdDigest k 0
  | rdCountLo => rfl
  | rdCountHi => rfl
  | rdReserved off => exact decodeBus_rdReserved (by simpa [Instr.wf] using hi) 0
  | wrIgnored off v => exact decodeBus_wrIgnored (by simpa [Instr.wf] using hi) v
  | ff j => exact decodeRound_append 0 j
  | gg j => exact decodeRound_append 1 j
  | hh j => exact decodeRound_append 2 j
  | ii j => exact decodeRound_append 3 j

/-- Settles O2, by the instruction's row. -/
theorem decodeOfEncodeIsIdentity : Obligations.DecodeOfEncodeIsIdentity := fun _ hi => decode_encode hi

/-- Settles O3, format by format. -/
theorem encodeOfDecodeIsIdentity : Obligations.EncodeOfDecodeIsIdentity :=
  ⟨encode_decodeCmd, encode_decodeRound, encode_decodeBus⟩

/-! ### Command words by match and mask (rule R73) -/

section
variable (w : Word)

/-- A command word decodes to an instruction exactly when it is that instruction's encoding. -/
theorem decodeCmd_eq_iff {i : Instr} (hi : i.wf = true) : decodeCmd w = i ↔ encode i = .cmd w := by
  constructor
  · rintro rfl
    exact encode_decodeCmd w
  · intro h
    have hdecode := decode_encode hi
    rwa [h] at hdecode

/-- A row without an operand selects the one word it names. -/
theorem fullMask_iff_decodeCmd {i : Instr} {c : Word} (hi : i.wf = true) (hc : encode i = .cmd c) :
    w &&& 0xFFFFFFFF = c ↔ decodeCmd w = i := by
  rw [decodeCmd_eq_iff w hi, hc, Code.cmd.injEq, mask0_iff, BitVec.toNat_inj, eq_comm]

theorem byteMask_iff_decodeCmd :
    w &&& 0xFFFFFF00 = 0x20000000 ↔ decodeCmd w = .ingestByte (w.extractLsb' 0 8) := by
  rw [decodeCmd_eq_iff w rfl, mask8_iff, byteRow_iff, encode, Code.cmd.injEq]

theorem wordMask_iff_decodeCmd :
    w &&& 0xFFFFFFFC = 0x30000000 ↔ decodeCmd w = .ingestWord (w.extractLsb' 0 2) := by
  rw [decodeCmd_eq_iff w rfl, mask2_iff, wordRow_iff, encode, Code.cmd.injEq]

theorem isCommandWord_eq_false_iff : isCommandWord w = false ↔ ∀ row ∈ cmdRows, w &&& row.2 ≠ row.1 := by
  simp [isCommandWord]

theorem noRow_iff_decodeCmd : (∀ row ∈ cmdRows, w &&& row.2 ≠ row.1) ↔ decodeCmd w = .illegal w := by
  rw [← isCommandWord_eq_false_iff]
  refine ⟨decodeCmd_illegal, fun h => ?_⟩
  have hwf := decodeCmd_wf w
  rw [h] at hwf
  simpa [Instr.wf] using hwf

theorem cmdRows_mask_keeps_opcOf : ∀ row ∈ cmdRows, opcOf row.2 = BitVec.allOnes 4 := by
  simp [cmdRows, opcOf]

/-- The match values of the rows differ in OPC. -/
theorem cmdRows_opcOf_injective :
    ∀ row ∈ cmdRows, ∀ row' ∈ cmdRows, opcOf row.1 = opcOf row'.1 → row = row' :=
  List.inj_on_of_nodup_map (f := fun row : Word × Word => opcOf row.1) (by decide)

/-- Every mask keeps OPC, so a row selects only words with the OPC of its match value. -/
theorem opcOf_of_row {row : Word × Word} (hrow : row ∈ cmdRows) (h : w &&& row.2 = row.1) :
    opcOf w = opcOf row.1 := by
  have hmask : opcOf row.2 = BitVec.allOnes 4 := cmdRows_mask_keeps_opcOf row hrow
  have hand : opcOf (w &&& row.2) = opcOf w &&& opcOf row.2 := BitVec.extractLsb'_and
  rw [← h, hand, hmask, BitVec.and_allOnes]

end

/-- Settles O4: the rows one by one, then that OPC tells them apart. -/
theorem commandWordsSelectedByMatchAndMask : Obligations.CommandWordsSelectedByMatchAndMask := fun w =>
  ⟨fullMask_iff_decodeCmd w rfl rfl, fullMask_iff_decodeCmd w rfl rfl, byteMask_iff_decodeCmd w,
    wordMask_iff_decodeCmd w, rfl, fullMask_iff_decodeCmd w rfl rfl, noRow_iff_decodeCmd w,
    fun row hrow row' hrow' h h' => cmdRows_opcOf_injective row hrow row' hrow'
      ((opcOf_of_row w hrow h).symm.trans (opcOf_of_row w hrow' h'))⟩

/-! ### Words written out -/

/-- Settles O1: the decoder run on each word. -/
theorem writtenOutWordsDecode : Obligations.WrittenOutWordsDecode := by
  unfold Obligations.WrittenOutWordsDecode
  decide

end Sys2Proof.Machine
end

section
/-! The round operations (spec/40_transform.md rules R105 to R115): the four functions bit by bit, the three columns of the
schedule by pass and position, and what FF, GG, HH and II do with them. -/

namespace Sys2Proof.Machine

/-! ### Nonlinear functions (rule R114) -/

section
variable (b c d : Word)

/-- Bit n of b chooses between c and d. -/
theorem getLsbD_funF {n : Nat} (hn : n < 32) :
    (funF b c d).getLsbD n = if b.getLsbD n then c.getLsbD n else d.getLsbD n := by
  rw [funF, BitVec.getLsbD_or, BitVec.getLsbD_and, BitVec.getLsbD_and, BitVec.getLsbD_not]
  cases b.getLsbD n <;> simp [hn]

/-- G is F with d as the bit that chooses. -/
theorem funG_eq_funF : funG b c d = funF d b c := by
  rw [funG, funF, BitVec.and_comm b, BitVec.and_comm c]

theorem getLsbD_funH (n : Nat) :
    (funH b c d).getLsbD n = ((b.getLsbD n ^^ c.getLsbD n) ^^ d.getLsbD n) := by
  rw [funH, BitVec.getLsbD_xor, BitVec.getLsbD_xor]

theorem getLsbD_funI {n : Nat} (hn : n < 32) :
    (funI b c d).getLsbD n = (c.getLsbD n ^^ (b.getLsbD n || !d.getLsbD n)) := by
  rw [funI, BitVec.getLsbD_xor, BitVec.getLsbD_or, BitVec.getLsbD_not, decide_eq_true hn, Bool.true_and]

end

/-- Settles O10: the four functions one by one. -/
theorem nonlinearFunctionsBitByBit : Obligations.NonlinearFunctionsBitByBit := fun b c d n hn =>
  ⟨getLsbD_funF b c d hn, funG_eq_funF b c d ▸ getLsbD_funF d b c hn, getLsbD_funH b c d n, getLsbD_funI b c d hn⟩

/-! ### Message words (rule R105) -/

theorem msgIndex_append (p : BitVec 2) (j : BitVec 4) : msgIndex (p ++ j) =
    if p = 0 then j else if p = 1 then 1 + 5 * j else if p = 2 then 5 + 3 * j else 7 * j := by
  rw [msgIndex, passOf_append, posOf_append]

/-- In every pass the factor of j is odd, so it cancels modulo 16. -/
theorem msgIndex_append_injective (p : BitVec 2) : Function.Injective fun j : BitVec 4 => msgIndex (p ++ j) := by
  intro j k h
  simp only [msgIndex_append] at h
  split at h
  · exact h
  split at h
  · bv_omega
  split at h
  · bv_omega
  · bv_omega

section
variable (j : BitVec 4)

theorem msgIndex_pass1 : (msgIndex (0b00#2 ++ j)).toNat = j.toNat := congrArg BitVec.toNat (msgIndex_append 0 j)

theorem msgIndex_pass2 : (msgIndex (0b01#2 ++ j)).toNat = (1 + 5 * j.toNat) % 16 := by
  rw [show msgIndex (0b01#2 ++ j) = 1 + 5 * j from msgIndex_append 1 j]
  bv_omega

theorem msgIndex_pass3 : (msgIndex (0b10#2 ++ j)).toNat = (5 + 3 * j.toNat) % 16 := by
  rw [show msgIndex (0b10#2 ++ j) = 5 + 3 * j from msgIndex_append 2 j]
  bv_omega

theorem msgIndex_pass4 : (msgIndex (0b11#2 ++ j)).toNat = (7 * j.toNat) % 16 := by
  rw [show msgIndex (0b11#2 ++ j) = 7 * j from msgIndex_append 3 j]
  bv_omega

end

/-- Settles O11: the formulas, and that an injective index among sixteen words takes each of them once. -/
theorem messageWordOrderByPass : Obligations.MessageWordOrderByPass :=
  ⟨fun j => ⟨msgIndex_pass1 j, msgIndex_pass2 j, msgIndex_pass3 j, msgIndex_pass4 j⟩,
    fun p => (Finite.injective_iff_bijective.mp (msgIndex_append_injective p)).existsUnique⟩

/-! ### Shift amounts (rules R106, R124) -/

theorem shiftAmount_append (p : BitVec 2) (j : BitVec 4) :
    shiftAmount (p ++ j) = shiftTable.getD (4 * p.toNat + j.toNat % 4) 0 := by
  rw [shiftAmount, passOf_append, BitVec.extractLsb'_append_eq_of_add_le (by decide), BitVec.extractLsb'_toNat,
    Nat.shiftRight_zero]

/-- A pass has the shift amounts of its row of the table. -/
theorem shiftAmount_of_row {p : BitVec 2} {row : List Nat}
    (hrow : ∀ n < 4, shiftTable.getD (4 * p.toNat + n) 0 = row.getD n 0) (j : BitVec 4) :
    shiftAmount (p ++ j) = row.getD (j.toNat % 4) 0 :=
  (shiftAmount_append p j).trans (hrow _ (Nat.mod_lt _ (by decide)))

theorem shiftAmount_mem (rnd : BitVec 6) : shiftAmount rnd ∈ shiftTable := by
  have hlen : 4 * (passOf rnd).toNat + (posOf rnd).toNat % 4 < shiftTable.length := by
    show _ < 16
    have := (passOf rnd).isLt
    omega
  rw [← pass_append_pos rnd, shiftAmount_append, List.getD_eq_getElem _ _ hlen]
  exact List.getElem_mem hlen

theorem shiftTable_bounds : ∀ sh ∈ shiftTable, 1 ≤ sh ∧ sh ≤ 31 := by decide

section
variable (j : BitVec 4)

theorem shiftAmount_pass1 : shiftAmount (0b00#2 ++ j) = [7, 12, 17, 22].getD (j.toNat % 4) 0 :=
  shiftAmount_of_row (by decide) j

theorem shiftAmount_pass2 : shiftAmount (0b01#2 ++ j) = [5, 9, 14, 20].getD (j.toNat % 4) 0 :=
  shiftAmount_of_row (by decide) j

theorem shiftAmount_pass3 : shiftAmount (0b10#2 ++ j) = [4, 11, 16, 23].getD (j.toNat % 4) 0 :=
  shiftAmount_of_row (by decide) j

theorem shiftAmount_pass4 : shiftAmount (0b11#2 ++ j) = [6, 10, 15, 21].getD (j.toNat % 4) 0 :=
  shiftAmount_of_row (by decide) j

end

/-- Settles O12: the rows of the table, and the bounds of all its entries. -/
theorem shiftAmountsByPassAndPosition : Obligations.ShiftAmountsByPassAndPosition :=
  ⟨fun j => ⟨shiftAmount_pass1 j, shiftAmount_pass2 j, shiftAmount_pass3 j, shiftAmount_pass4 j⟩,
    fun rnd => shiftTable_bounds _ (shiftAmount_mem rnd)⟩

/-! ### Additive constants (rule R107) -/

theorem additiveConstant_append (p : BitVec 2) (j : BitVec 4) :
    additiveConstant (p ++ j) = constantTable.getD (16 * p.toNat + j.toNat) 0 := by
  rw [additiveConstant, BitVec.toNat_append, ← Nat.shiftLeft_add_eq_or_of_lt j.isLt, Nat.shiftLeft_eq, Nat.mul_comm]

/-- A pass has the constants of its row of the table. -/
theorem additiveConstant_of_row {p : BitVec 2} {row : List Word}
    (hrow : ∀ n < 16, constantTable.getD (16 * p.toNat + n) 0 = row.getD n 0) (j : BitVec 4) :
    additiveConstant (p ++ j) = row.getD j.toNat 0 :=
  (additiveConstant_append p j).trans (hrow _ j.isLt)

section
variable (j : BitVec 4)

theorem additiveConstant_pass1 : additiveConstant (0b00#2 ++ j) = constants1.getD j.toNat 0 :=
  additiveConstant_of_row (by decide) j

theorem additiveConstant_pass2 : additiveConstant (0b01#2 ++ j) = constants2.getD j.toNat 0 :=
  additiveConstant_of_row (by decide) j

theorem additiveConstant_pass3 : additiveConstant (0b10#2 ++ j) = constants3.getD j.toNat 0 :=
  additiveConstant_of_row (by decide) j

theorem additiveConstant_pass4 : additiveConstant (0b11#2 ++ j) = constants4.getD j.toNat 0 :=
  additiveConstant_of_row (by decide) j

end

/-! ### FF, GG, HH and II (rules R110 to R113, R115) -/

theorem Engine.word_eq_getElem (e : Engine) {k : BitVec 4} {n : Nat} (hk : k.toNat = n) (hn : n < 16) :
    e.word k = e.x[n] := by
  subst hk
  rfl

/-- The template of the four round operations, with the three columns of the schedule at its index put in. -/
theorem exec_round_operation {i : Instr} {s : State} {f : Word → Word → Word → Word} {rnd : BitVec 6} {n shift : Nat}
    {const : Word} (hexec : exec i s = .next (s.setEngine (s.engine.roundWith f rnd))) (hn : n < 16)
    (hindex : (msgIndex rnd).toNat = n) (hconst : additiveConstant rnd = const) (hshift : shiftAmount rnd = shift) :
    ∃ e : Engine, exec i s = .next { s with engine := e } ∧
      e.b = s.engine.b + rotl (s.engine.a + f s.engine.b s.engine.c s.engine.d + s.engine.x[n] + const) shift ∧
      e = { s.engine with a := s.engine.d, b := e.b, c := s.engine.b, d := s.engine.c } :=
  ⟨_, hexec, by rw [Engine.roundWith_b, Engine.word_eq_getElem _ hindex hn, hconst, hshift], rfl⟩

/-- Settles O13: the template with `funF` and the schedule of pass 1. -/
theorem ffRoundOperation : Obligations.FfRoundOperation := fun j _ =>
  exec_round_operation (f := funF) rfl j.isLt (msgIndex_pass1 j) (additiveConstant_pass1 j) (shiftAmount_pass1 j)

/-- Settles O14: the template with `funG` and the schedule of pass 2. -/
theorem ggRoundOperation : Obligations.GgRoundOperation := fun j _ =>
  exec_round_operation (f := funG) rfl (Nat.mod_lt _ (by decide)) (msgIndex_pass2 j) (additiveConstant_pass2 j)
    (shiftAmount_pass2 j)

/-- Settles O15: the template with `funH` and the schedule of pass 3. -/
theorem hhRoundOperation : Obligations.HhRoundOperation := fun j _ =>
  exec_round_operation (f := funH) rfl (Nat.mod_lt _ (by decide)) (msgIndex_pass3 j) (additiveConstant_pass3 j)
    (shiftAmount_pass3 j)

/-- Settles O16: the template with `funI` and the schedule of pass 4. -/
theorem iiRoundOperation : Obligations.IiRoundOperation := fun j _ =>
  exec_round_operation (f := funI) rfl (Nat.mod_lt _ (by decide)) (msgIndex_pass4 j) (additiveConstant_pass4 j)
    (shiftAmount_pass4 j)

end Sys2Proof.Machine
end

section
/-! The transform (spec/40_transform.md rules R120, R121, R124): a list of decoded round instructions runs the rounds of its
indices, and no round touches the entry state that the final addition adds. -/

namespace Sys2Proof.Machine

/-- By induction on the list: each instruction runs the round of its index (rule R85). -/
theorem runInstrs_decoded_rounds (l : List Nat) (s : State) :
    runInstrs (l.map fun i => decode (.round (BitVec.ofNat 6 i))) s =
      .next (s.setEngine (l.foldl Engine.round s.engine)) := by
  induction l generalizing s with
  | nil => rfl
  | cons i l ih =>
    have hexec : exec (decode (.round (BitVec.ofNat 6 i))) s = .next (s.setEngine (s.engine.round i)) :=
      exec_decodeRound (BitVec.ofNat 6 i) s
    rw [List.map_cons, runInstrs_cons_of_exec hexec, ih, List.foldl_cons, State.setEngine_engine,
      State.setEngine_setEngine]

/-- Rounds leave the entry state alone, so the final addition adds the words the engine came with (rule R121). -/
theorem Engine.result_foldl_round (l : List Nat) (e : Engine) : (l.foldl Engine.round e).result =
    ⟨(l.foldl Engine.round e).a + e.a0, (l.foldl Engine.round e).b + e.b0, (l.foldl Engine.round e).c + e.c0,
      (l.foldl Engine.round e).d + e.d0⟩ := by
  induction l generalizing e with
  | nil => rfl
  | cons i l ih => exact ih (e.round i)

/-- Settles O17: running the instructions is the fold of rounds that the transform is. -/
theorem decodedRoundsMakeTheTransform : Obligations.DecodedRoundsMakeTheTransform := fun h x s =>
  ⟨_, runInstrs_decoded_rounds (List.range 64) (s.setEngine (Engine.load h x)),
    (transform_eq h x).trans (Engine.result_foldl_round (List.range 64) (Engine.load h x))⟩

/-- Settles O18: each transform run by the kernel. -/
theorem workedTransforms : Obligations.WorkedTransforms :=
  ⟨by decide +kernel, by decide +kernel, by decide +kernel⟩

end Sys2Proof.Machine
end

section
/-! The commands that ingest nothing (spec/41_accumulator.md rules R140, R142): NOP, and the new digest that INIT starts. -/

namespace Sys2Proof.Machine

/-- Settles O22: the word of NOP decodes to NOP, and a CMD write of it completes the port's write first. -/
theorem nopChangesNothing : Obligations.NopChangesNothing :=
  fun s => ⟨rfl, none, exec_wrCmd 0x00000000 s⟩

/-- Of a new digest STATUS shows HOST_BE alone (rules R34, R142). -/
theorem State.status_startNew (s : State) :
    s.startNew.status = if s.hostBe then 0x00000004 else 0x00000000 := by
  have hfill : s.startNew.fill = 0 := rfl
  rw [State.status, State.errFlag, hfill, State.startNew_finalized, State.startNew_errCode, State.startNew_hostBe]
  cases s.hostBe <;> rfl

theorem State.countLo_startNew (s : State) : s.startNew.countLo = 0 := by
  rw [State.countLo, State.startNew_count]
  rfl

theorem State.countHi_startNew (s : State) : s.startNew.countHi = 0 := by
  rw [State.countHi, State.startNew_count]
  decide

/-- Settles O23: INIT is `State.startNew`; the reads then see COUNT = 0 and, with FINALIZED = 0, no digest. -/
theorem initStartsANewDigest : Obligations.InitStartsANewDigest := fun s =>
  ⟨s.startNew, rfl, rfl, congrArg (Host.Outcome.next ∘ s.startNew.respond) s.status_startNew,
    congrArg (Host.Outcome.next ∘ s.startNew.respond) s.countLo_startNew,
    congrArg (Host.Outcome.next ∘ s.startNew.respond) s.countHi_startNew,
    fun k => (digestReadsAfterFinalize s.startNew k).1 s.startNew_finalized⟩

end Sys2Proof.Machine
end

section
/-! The two ingestion commands (spec/41_accumulator.md rules R145, R148, R150, R163): with FINALIZED = 1 they are rejected, and
with FINALIZED = 0 both are the ingest primitive, INGEST_WORD on the bytes of its operand one after another. -/

namespace Sys2Proof.Machine

/-! ### Rejection -/

section
variable {i : Instr} {s : State}

theorem exec_of_ingestion_of_finalized (hi : (∃ b, i = .ingestByte b) ∨ ∃ km1, i = .ingestWord km1)
    (hf : s.finalized = true) : exec i s = .next (s.raiseUsageError .ingestAfterFinalize) := by
  rcases hi with ⟨b, rfl⟩ | ⟨km1, rfl⟩
  · exact congrArg _ (State.ingestOrReject_of_finalized [b] hf)
  · exact congrArg _ (State.ingestOrReject_of_finalized (s.ingestOperand km1) hf)

/-- INGEST_AFTER_FINALIZE changes ERR_CODE, where it is the first error, and the history (rules R200, R203). -/
theorem State.raiseUsageError_ingestAfterFinalize_only (s : State) :
    s.raiseUsageError .ingestAfterFinalize = { s with
      errCode := if s.errCode = 0 then 1 else s.errCode,
      faults := (s.raiseUsageError .ingestAfterFinalize).faults } ∧
    ∃ ev, (s.raiseUsageError .ingestAfterFinalize).faults = s.faults ++ [ev] ∧ ev.error = .ingestAfterFinalize :=
  ⟨rfl, _, rfl, rfl⟩

end

/-- Settles O25: the error is the only effect, and DIGESTk does not look at it. -/
theorem ingestAfterFinalizeIsRejected : Obligations.IngestAfterFinalizeIsRejected := by
  intro s i hf hi
  obtain ⟨honly, hevent⟩ := s.raiseUsageError_ingestAfterFinalize_only
  refine ⟨_, exec_of_ingestion_of_finalized hi hf, honly, hevent, fun k => ⟨s.digestRead k, exec_rdDigest s k, ?_⟩⟩
  rw [exec_rdDigest, State.raiseUsageError_digestRead]

/-! ### One byte -/

section
variable {s t : State}

/-- BUF[0..63] is a matter of the store alone. -/
theorem State.bufBlock_congr (h : s.buf = t.buf) : s.bufBlock = t.bufBlock := by
  simp only [State.bufBlock, State.bufByte, h]

/-- H moves only with the byte that fills BUF, by one transform of BUF (rule R145). -/
theorem State.ingestByte_h (s : State) (x : Byte) : (s.ingestByte x).h =
    if s.fill = 63 then transform s.h (words (s.ingestByte x).bufBlock) else s.h := by
  split
  · next hfull =>
    rw [State.ingestByte_of_full s x hfull, State.setH_h, State.setH_bufBlock, State.releaseEngine_bufBlock]
  · next hroom => rw [State.ingestByte_of_room s x hroom, State.putByte_h]

theorem State.ingestByte_fill_of_full (x : Byte) (h : s.fill = 63) : (s.ingestByte x).fill = 0 := by
  have hnext := s.ingestByte_fill x
  rw [h] at hnext
  exact BitVec.eq_of_toNat_eq hnext

end

/-- Settles O24: the byte and the count by the laws of `State.ingestByte`, then its two cases, room or a full block. -/
theorem ingestByteTakesOneByte : Obligations.IngestByteTakesOneByte := by
  intro s b hw
  refine ⟨s.ingestOrReject [b], rfl, fun hf => ?_, fun hf => ?_⟩
  · rw [State.ingestOrReject_of_not_finalized [b] hf, State.ingestBytes_cons, State.ingestBytes_nil]
    refine ⟨s.ingestByte_count b, ?_, fun a ha => ?_, fun hroom => ?_, fun hfull =>
      ⟨?_, State.ingestByte_fill_of_full b hfull, s.ingestBytes_frame [b]⟩⟩
    · rw [State.ingestByte_bufByte hw, if_pos rfl]
    · rw [State.ingestByte_bufByte hw, if_neg ha]
    · rw [State.ingestByte_of_room s b hroom]
      rfl
    · rw [State.ingestByte_h, if_pos hfull]
  · rw [State.ingestOrReject_of_finalized [b] hf]
    exact s.raiseUsageError_ingestAfterFinalize_only

/-! ### The bytes of a word -/

/-- COUNT counts every byte, modulo 2^64 (rule R152). -/
theorem State.ingestBytes_count (s : State) (bs : List Byte) :
    (s.ingestBytes bs).count = s.count + BitVec.ofNat 64 bs.length := by
  induction bs generalizing s with
  | nil => exact (BitVec.add_zero _).symm
  | cons b bs ih =>
    rw [State.ingestBytes_cons, ih, State.ingestByte_count, List.length_cons, Nat.add_comm bs.length, BitVec.ofNat_add,
      BitVec.add_assoc]
    rfl

/-- INGEST_BYTEs one after another are their bytes ingested in order (rule R152). -/
theorem runInstrs_ingestByte (bs : List Byte) {s : State} (hf : s.finalized = false) :
    runInstrs (bs.map .ingestByte) s = .next (s.ingestBytes bs) := by
  induction bs generalizing s with
  | nil => rfl
  | cons b bs ih =>
    have hexec : exec (.ingestByte b) s = .next (s.ingestByte b) := exec_of_ingestion (.inl ⟨b, rfl⟩) hf
    rw [List.map_cons, runInstrs_cons_of_exec hexec, ih ((s.ingestByte_finalized b).trans hf), State.ingestBytes_cons]

/-- The operand byte by byte: `adapt_in(DATA)[8m+7 : 8m]` for m < k (rule R150). -/
theorem State.ingestOperand_eq_map (s : State) (km1 : BitVec 2) :
    s.ingestOperand km1 = (List.range (km1.toNat + 1)).map (byteOf (adaptIn s.hostBe s.data)) := by
  refine List.ext_getElem (by simp) fun m hm _ => ?_
  rw [State.getElem_ingestOperand s km1 hm, List.getElem_map, List.getElem_range]

/-- Settles O26: both commands ingest their bytes one by one, and the operand is the first k of them. -/
theorem ingestWordTakesTheFirstBytes : Obligations.IngestWordTakesTheFirstBytes := by
  intro s km1
  refine ⟨s.ingestOrReject (s.ingestOperand km1), rfl, fun hf => ?_, fun hf => ?_⟩
  · rw [State.ingestOrReject_of_not_finalized _ hf]
    have hrun := runInstrs_ingestByte (s.ingestOperand km1) hf
    rw [State.ingestOperand_eq_map, List.map_map] at hrun
    rw [State.ingestBytes_count, State.length_ingestOperand, State.ingestOperand_eq_map]
    exact ⟨hrun, s.ingestBytes_data _, rfl⟩
  · rw [State.ingestOrReject_of_finalized _ hf]
    exact s.raiseUsageError_ingestAfterFinalize_only

end Sys2Proof.Machine
end

section
/-! Padding and the length field (spec/41_accumulator.md rules R155 to R161): the padding blocks of a FINALIZE as the byte
sequences the rules write, and that a FINALIZE leaves all it reads. -/

namespace Sys2Proof.Machine

/-! ### Blocks as byte sequences -/

theorem getElem_blockOf (bs : List Byte) {i : Nat} (hi : i < 64) : (blockOf bs)[i] = bs.getD i 0x00 := by
  rw [blockOf, Vector.getElem_ofFn]

/-- A block takes the first 64 bytes, whatever follows them. -/
theorem blockOf_append {bs : List Byte} (h : bs.length = 64) (cs : List Byte) : blockOf (bs ++ cs) = blockOf bs := by
  refine Vector.ext fun i hi => ?_
  rw [getElem_blockOf _ hi, getElem_blockOf _ hi, List.getD_append _ _ _ _ (by rwa [h])]

@[simp] theorem length_bytesLE64 (v : BitVec 64) : (bytesLE64 v).length = 8 := rfl

theorem getD_bytesLE64 (v : BitVec 64) {m : Nat} (hm : m < 8) : (bytesLE64 v).getD m 0x00 = byteOf64 v m := by
  match m, hm with
  | 0, _ | 1, _ | 2, _ | 3, _ | 4, _ | 5, _ | 6, _ | 7, _ => rfl

/-- Placing the length after the first 56 bytes of a block appends its eight bytes (rule R156). -/
theorem withLength_blockOf {bs : List Byte} (h : bs.length = 56) (v : BitVec 64) :
    withLength (blockOf bs) v = blockOf (bs ++ bytesLE64 v) := by
  refine Vector.ext fun i hi => ?_
  rw [getElem_blockOf _ hi, withLength, Vector.getElem_ofFn]
  dsimp only
  split
  · next hlt => rw [getElem_blockOf _ hi, List.getD_append _ _ _ _ (by rwa [h])]
  · next hge => rw [List.getD_append_right _ _ _ _ (by omega), h, getD_bytesLE64 v (by omega)]

theorem getD_zeros (n i : Nat) : (List.replicate n (0x00 : Byte)).getD i 0x00 = 0x00 := by
  rw [List.getD_eq_getElem?_getD, List.getElem?_getD_replicate_default_eq]

/-- Any number of zero bytes makes the zero block, since a block ends in zeros where its bytes run out. -/
theorem replicate_eq_blockOf (n : Nat) : (Vector.replicate 64 0 : Block) = blockOf (List.replicate n 0x00) := by
  refine Vector.ext fun i hi => ?_
  rw [getElem_blockOf _ hi, Vector.getElem_replicate, getD_zeros]

/-! ### The padding blocks -/

section
variable (s : State)

theorem State.getElem_pendingBytes {i : Nat} (hi : i < s.pendingBytes.length) : s.pendingBytes[i] = s.bufByte i := by
  simp [State.pendingBytes]

/-- PB before the length is placed: the pending bytes, 0x80 and zeros, however many of them are written (rule R155). -/
theorem State.padBlock_eq_blockOf (n : Nat) :
    s.padBlock = blockOf (s.pendingBytes ++ [0x80] ++ List.replicate n 0x00) := by
  have hlen := s.length_pendingBytes
  refine Vector.ext fun i hi => ?_
  rw [getElem_blockOf _ hi, State.padBlock, Vector.getElem_ofFn, List.append_assoc]
  dsimp only
  split
  · next hlt =>
    have hpending : i < s.pendingBytes.length := by rwa [hlen]
    rw [List.getD_append _ _ _ _ hpending, List.getD_eq_getElem _ _ hpending, State.getElem_pendingBytes]
  · next hge =>
    rw [List.getD_append_right _ _ _ _ (by omega), hlen]
    split
    · next heq => rw [heq, Nat.sub_self]; rfl
    · next hne =>
      obtain ⟨k, hk⟩ : ∃ k, i - s.fill.toNat = k + 1 := ⟨i - s.fill.toNat - 1, by omega⟩
      rw [hk, List.singleton_append, List.getD_cons_succ, getD_zeros]

theorem State.lengthBlock_eq_blockOf : s.lengthBlock = blockOf (List.replicate 56 0x00 ++ bytesLE64 s.bitLength) := by
  rw [State.lengthBlock, replicate_eq_blockOf 56, withLength_blockOf List.length_replicate]

variable {s}

/-- One padding block for L <= 55 (rule R157). -/
theorem State.finalHash_of_le (h : s.fill.toNat ≤ 55) : s.finalHash = transform s.h (words (blockOf
    (s.pendingBytes ++ [0x80] ++ List.replicate (55 - s.fill.toNat) 0x00 ++ bytesLE64 s.bitLength))) := by
  have hone : s.onePadBlock = true := decide_eq_true h
  rw [State.finalHash_of_one hone, State.firstPadBlock, if_pos hone, State.padBlock_eq_blockOf _ (55 - s.fill.toNat),
    withLength_blockOf (by simp; omega)]

/-- Two padding blocks for L >= 56 (rule R158). -/
theorem State.finalHash_of_ge (h : 56 ≤ s.fill.toNat) : s.finalHash = transform
    (transform s.h (words (blockOf (s.pendingBytes ++ [0x80] ++ List.replicate (63 - s.fill.toNat) 0x00))))
    (words (blockOf (List.replicate 56 0x00 ++ bytesLE64 s.bitLength))) := by
  have htwo : s.onePadBlock = false := decide_eq_false (by omega)
  rw [State.finalHash_of_two htwo, State.firstPadBlock, if_neg (Bool.eq_false_iff.mp htwo), State.padBlock_eq_blockOf,
    State.lengthBlock_eq_blockOf]

end

/-! ### FINALIZE -/

/-- The fields a FINALIZE writes: DIGEST_H and FINALIZED, and the internals it releases. -/
theorem State.releaseInternals_setDigest_frame (s : State) (h : Hash) :
    s.releaseInternals.setDigest h = { s with
      digestH := h, finalized := true, engine := (s.releaseInternals.setDigest h).engine,
      fin := (s.releaseInternals.setDigest h).fin, draws := (s.releaseInternals.setDigest h).draws } := (rfl)

/-- Settles O28: the two cases of the padding, and the fields a FINALIZE writes. -/
theorem finalizePadsAndHashes : Obligations.FinalizePadsAndHashes := fun s =>
  ⟨s.releaseInternals.setDigest s.finalHash, rfl, State.finalHash_of_le, State.finalHash_of_ge,
    s.releaseInternals_setDigest_frame s.finalHash⟩

/-- Settles O30: a FINALIZE leaves H, BUF and COUNT, of which the second computes the same hash. -/
theorem secondFinalizeRepeatsTheDigest : Obligations.SecondFinalizeRepeatsTheDigest := by
  intro s
  refine ⟨_, _, rfl, rfl, ?_⟩
  simp

/-- Settles O29: eight times COUNT, modulo 2^64. -/
theorem lengthFieldWraps : Obligations.LengthFieldWraps := by
  have hbits : ∀ s : State, s.bitLength.toNat = (s.count.toNat * 8) % 2 ^ 64 := fun s => BitVec.toNat_mul ..
  refine ⟨hbits, fun s h => BitVec.eq_of_toNat_eq ?_, fun s h => BitVec.eq_of_toNat_eq ?_⟩
  · rw [hbits, h]
    rfl
  · rw [hbits, h]
    rfl

end Sys2Proof.Machine
end

section
/-! The whole message (spec/41_accumulator.md rules R152, R153, R162): a run that ingests a byte sequence leaves the accumulator
that ingesting the sequence at once leaves, and the blocks hashed so far followed by those still to come are the blocks of the
sequence. -/

namespace Sys2Proof.Machine

/-! ### The accumulator -/

/-- The same accumulator: H, BUF and COUNT, which are all that ingestion and FINALIZE read of a state. -/
structure State.SameAccumulator (s t : State) : Prop where
  h_eq : s.h = t.h
  buf_eq : s.buf = t.buf
  count_eq : s.count = t.count

section
variable {s t u : State}

theorem State.SameAccumulator.refl (s : State) : s.SameAccumulator s := ⟨rfl, rfl, rfl⟩

theorem State.SameAccumulator.symm (hst : s.SameAccumulator t) : t.SameAccumulator s :=
  ⟨hst.h_eq.symm, hst.buf_eq.symm, hst.count_eq.symm⟩

theorem State.SameAccumulator.trans (hst : s.SameAccumulator t) (htu : t.SameAccumulator u) : s.SameAccumulator u :=
  ⟨hst.h_eq.trans htu.h_eq, hst.buf_eq.trans htu.buf_eq, hst.count_eq.trans htu.count_eq⟩

theorem State.SameAccumulator.fill_eq (hst : s.SameAccumulator t) : s.fill = t.fill :=
  congrArg (BitVec.extractLsb' 0 6) hst.count_eq

theorem State.SameAccumulator.pendingBytes_eq (hst : s.SameAccumulator t) : s.pendingBytes = t.pendingBytes := by
  have hread : s.bufByte = t.bufByte := congrArg Memory.read hst.buf_eq
  rw [State.pendingBytes, State.pendingBytes, hst.fill_eq, hread]

theorem State.SameAccumulator.ingestByte (hst : s.SameAccumulator t) (x : Byte) :
    (s.ingestByte x).SameAccumulator (t.ingestByte x) := by
  have hbuf : (s.ingestByte x).buf = (t.ingestByte x).buf := by simp [hst.buf_eq, hst.fill_eq]
  refine ⟨?_, hbuf, by simp [hst.count_eq]⟩
  rw [State.ingestByte_h, State.ingestByte_h, hst.fill_eq, hst.h_eq, State.bufBlock_congr hbuf]

theorem State.SameAccumulator.ingestBytes (hst : s.SameAccumulator t) (bs : List Byte) :
    (s.ingestBytes bs).SameAccumulator (t.ingestBytes bs) := by
  induction bs generalizing s t with
  | nil => exact hst
  | cons b bs ih => exact ih (hst.ingestByte b)

theorem State.SameAccumulator.finalHash_eq (hst : s.SameAccumulator t) : s.finalHash = t.finalHash := by
  have hbits : s.bitLength = t.bitLength := congrArg (· * 8) hst.count_eq
  rcases Nat.lt_or_ge 55 s.fill.toNat with hge | hle
  · rw [State.finalHash_of_ge hge, State.finalHash_of_ge (hst.fill_eq ▸ hge), hst.h_eq, hst.pendingBytes_eq,
      hst.fill_eq, hbits]
  · rw [State.finalHash_of_le hle, State.finalHash_of_le (hst.fill_eq ▸ hle), hst.h_eq, hst.pendingBytes_eq,
      hst.fill_eq, hbits]

/-! ### What a run ingests -/

/-- An effect that ingests no byte, and neither begins nor completes a digest, leaves the accumulator. -/
theorem Effect.sameAccumulator {i : Instr} (h : Effect i u t) (hi : i.continues) (hfed : u.fedBy i = []) :
    t.SameAccumulator u := by
  obtain ⟨hinit, hfin⟩ := hi
  cases h with
  | init hc => exact absurd hc hinit
  | finalize hc => exact absurd hc hfin
  | ingest _ =>
    rw [hfed]
    rcases u.ingestOrReject_cases [] with hr | hr <;> rw [hr]
    · exact ⟨rfl, rfl, rfl⟩
    · exact .refl u
  | _ => exact ⟨rfl, rfl, rfl⟩

/-- With FINALIZED = 0 an instruction takes the accumulator through the bytes it is fed (rules R148, R150). -/
theorem exec_sameAccumulator {i : Instr} (h : exec i s = .next t) (hi : i.continues) (hf : s.finalized = false) :
    t.SameAccumulator (s.ingestBytes (s.fedBy i)) := by
  by_cases hfed : s.fedBy i = []
  · rw [hfed]
    obtain ⟨u, rfl | rfl, heffect⟩ := exec_effect h
    · exact heffect.sameAccumulator hi hfed
    · exact (heffect.sameAccumulator hi hfed).trans ⟨rfl, rfl, rfl⟩
  · obtain ⟨u, hu, hexec⟩ := exec_of_fedBy_ne_nil hfed
    cases hexec.symm.trans h
    obtain ⟨hsame, huf⟩ : u.SameAccumulator s ∧ u.finalized = false := by
      rcases hu with rfl | rfl
      · exact ⟨.refl _, hf⟩
      · exact ⟨⟨rfl, rfl, rfl⟩, hf⟩
    rw [State.ingestOrReject_of_not_finalized _ huf]
    exact hsame.ingestBytes _

theorem exec_finalized_of_continues {i : Instr} (h : exec i s = .next t) (hi : i.continues) :
    t.finalized = s.finalized := by
  obtain ⟨u, rfl | rfl, heffect⟩ := exec_effect h
  · exact heffect.finalized_eq hi.1 hi.2
  · exact heffect.finalized_eq hi.1 hi.2

theorem Ingests.finalized_eq_false {m : List Byte} (h : Ingests s m t) : t.finalized = false := by
  induction h with
  | refl hf => exact hf
  | step m t u i _ hi hexec ih => exact (exec_finalized_of_continues hexec hi).trans ih

/-- A run that ingests m, in whatever pieces, takes the accumulator through m (rule R153). -/
theorem Ingests.sameAccumulator {m : List Byte} (h : Ingests s m t) : t.SameAccumulator (s.ingestBytes m) := by
  induction h with
  | refl _ => exact .refl s
  | step m t u i hrun hi hexec ih =>
    rw [State.ingestBytes_append]
    exact (exec_sameAccumulator hexec hi hrun.finalized_eq_false).trans (ih.ingestBytes _)

end

/-- Settles O58: both runs leave the accumulator of the sequence ingested at once. -/
theorem chunkBoundariesDoNotMatter : Obligations.ChunkBoundariesDoNotMatter := by
  intro s t t' m _ hrun hrun'
  have hsame : t.SameAccumulator t' := hrun.sameAccumulator.trans hrun'.sameAccumulator.symm
  exact ⟨hsame.h_eq, hsame.count_eq, hsame.pendingBytes_eq, _, _, rfl, rfl, hsame.finalHash_eq⟩

/-! ### The blocks of a byte sequence -/

/-- `transform` over every whole block of a byte sequence, in order. -/
def hashWholeBlocks (h : Hash) (bs : List Byte) : Hash := hashBlocks h (bs.length / 64) bs

theorem messageDigest_eq (m : List Byte) (z : Nat) :
    messageDigest m z = hashWholeBlocks initialHash (paddedMessage m z) := rfl

theorem hashWholeBlocks_nil (h : Hash) : hashWholeBlocks h [] = h := rfl

/-- One block, then the blocks of what follows it. -/
theorem hashWholeBlocks_append (h : Hash) {bs : List Byte} (hbs : bs.length = 64) (cs : List Byte) :
    hashWholeBlocks h (bs ++ cs) = hashWholeBlocks (transform h (words (blockOf bs))) cs := by
  have hcount : (bs ++ cs).length / 64 = cs.length / 64 + 1 := by rw [List.length_append, hbs]; omega
  rw [hashWholeBlocks, hcount, hashBlocks, blockOf_append hbs, List.drop_left' hbs, hashWholeBlocks]

theorem hashWholeBlocks_of_block (h : Hash) {bs : List Byte} (hbs : bs.length = 64) :
    hashWholeBlocks h bs = transform h (words (blockOf bs)) := by
  have hone := hashWholeBlocks_append h hbs []
  rwa [List.append_nil, hashWholeBlocks_nil] at hone

section
variable {s : State}

/-- A byte moves from those to come to H and the pending bytes; the whole stays the same sequence of blocks. -/
theorem hashWholeBlocks_ingestByte (hw : s.buf.wf = true) (b : Byte) (rest : List Byte) :
    hashWholeBlocks (s.ingestByte b).h ((s.ingestByte b).pendingBytes ++ rest) =
      hashWholeBlocks s.h (s.pendingBytes ++ b :: rest) := by
  rw [← List.singleton_append, ← List.append_assoc]
  by_cases hf : s.fill = 63
  · have h63 : s.fill.toNat = 63 := congrArg BitVec.toNat hf
    have hempty : (s.ingestByte b).pendingBytes = [] := by
      rw [State.pendingBytes, State.ingestByte_fill_of_full b hf]
      rfl
    rw [hashWholeBlocks_append s.h (by simp [h63]), ← State.bufBlock_putByte_of_full hw h63, hempty,
      State.ingestByte_of_full s b hf, State.setH_h, List.nil_append]
  · have h63 : s.fill.toNat ≠ 63 := fun h => hf (BitVec.eq_of_toNat_eq h)
    rw [State.ingestByte_pendingBytes hw b h63, State.ingestByte_h, if_neg hf]

/-- Ingested bytes are hashed or pending, none lost and none twice. -/
theorem hashWholeBlocks_ingestBytes (bs : List Byte) (hw : s.buf.wf = true) (rest : List Byte) :
    hashWholeBlocks (s.ingestBytes bs).h ((s.ingestBytes bs).pendingBytes ++ rest) =
      hashWholeBlocks s.h (s.pendingBytes ++ (bs ++ rest)) := by
  induction bs generalizing s with
  | nil => rfl
  | cons b bs ih =>
    rw [State.ingestBytes_cons, ih (State.ingestByte_wf hw b), hashWholeBlocks_ingestByte hw, List.cons_append]

/-! ### The padding -/

/-- `[0x80] ++ 0^z ++ bytesLE64(bitlen)` (rules R156, R162). -/
def padding (z : Nat) (bitlen : BitVec 64) : List Byte := [0x80] ++ List.replicate z 0x00 ++ bytesLE64 bitlen

@[simp] theorem length_padding (z : Nat) (bitlen : BitVec 64) : (padding z bitlen).length = z + 9 := by
  simp [padding]

theorem paddedMessage_eq_append_padding (m : List Byte) (z : Nat) :
    paddedMessage m z = m ++ padding z (BitVec.ofNat 64 (8 * m.length)) := by
  simp only [paddedMessage, padding, List.append_assoc]

/-- FINALIZE hashes the pending bytes and the padding that completes their last block (rules R155, R159). -/
theorem State.finalHash_eq_hashWholeBlocks {z : Nat} (hz : z < 64) (hdvd : 64 ∣ s.fill.toNat + z + 9) :
    s.finalHash = hashWholeBlocks s.h (s.pendingBytes ++ padding z s.bitLength) := by
  have hlt := s.fill_lt
  rcases Nat.lt_or_ge 55 s.fill.toNat with hge | hle
  · obtain rfl : z = (63 - s.fill.toNat) + 56 := by omega
    rw [State.finalHash_of_ge hge, ← hashWholeBlocks_of_block _ (by simp), ← hashWholeBlocks_append _ (by simp; omega),
      padding, List.replicate_add]
    simp only [List.append_assoc]
  · obtain rfl : z = 55 - s.fill.toNat := by omega
    rw [State.finalHash_of_le hle, ← hashWholeBlocks_of_block _ (by simp; omega), padding]
    simp only [List.append_assoc]

/-- The least padding is shorter than a block, and completes one. -/
theorem LeastPadding.bounds {m : List Byte} {z : Nat} (h : LeastPadding m z) :
    z < 64 ∧ 64 ∣ m.length + z + 9 := by
  obtain ⟨hdvd, hleast⟩ := h
  have hlength : ∀ z', (paddedMessage m z').length = m.length + z' + 9 := fun z' => by
    rw [paddedMessage_eq_append_padding, List.length_append, length_padding, Nat.add_assoc]
  rw [hlength] at hdvd
  refine ⟨Nat.lt_of_not_le fun hge => ?_, hdvd⟩
  have hless := hleast (z - 64) (by rw [hlength]; omega)
  omega

end

/-- Settles O59: the run leaves the accumulator of m ingested at once, and FINALIZE pads it as rule R162 pads m. -/
theorem wholeMessageLaw : Obligations.WholeMessageLaw := by
  intro s t m z hfresh hw hrun hleast
  obtain ⟨hinit, hzero, -⟩ := hfresh
  obtain ⟨hz, hdvd⟩ := hleast.bounds
  have hcount : (s.ingestBytes m).count = BitVec.ofNat 64 m.length := by
    rw [State.ingestBytes_count, hzero]
    exact BitVec.zero_add _
  have hfill : (s.ingestBytes m).fill.toNat = m.length % 64 := by
    rw [State.fill_toNat, hcount, BitVec.toNat_ofNat]
    omega
  have hbits : (s.ingestBytes m).bitLength = BitVec.ofNat 64 (8 * m.length) := by
    rw [State.bitLength, hcount, Nat.mul_comm, BitVec.ofNat_mul]
    rfl
  have hempty : s.pendingBytes = [] := by
    rw [State.pendingBytes, State.fill, hzero]
    rfl
  refine ⟨_, rfl, ?_, State.setDigest_finalized _ _⟩
  calc t.finalHash
    _ = (s.ingestBytes m).finalHash := hrun.sameAccumulator.finalHash_eq
    _ = hashWholeBlocks (s.ingestBytes m).h ((s.ingestBytes m).pendingBytes ++ padding z (s.ingestBytes m).bitLength) :=
      State.finalHash_eq_hashWholeBlocks hz (by omega)
    _ = hashWholeBlocks s.h (s.pendingBytes ++ (m ++ padding z (s.ingestBytes m).bitLength)) :=
      hashWholeBlocks_ingestBytes m hw _
    _ = messageDigest m z := by
      rw [hinit, hempty, hbits, messageDigest_eq, paddedMessage_eq_append_padding, List.nil_append]

end Sys2Proof.Machine
end

section
/-! The endianness adapter (spec/42_endianness_and_readout.md rules R170 to R173): `swap32` byte by byte, and that what a host
stores or loads natively passes the adapter as the same bytes on either host. -/

namespace Sys2Proof.Machine

/-! ### swap32 (rule R170) -/

section
variable (a0 a1 a2 a3 b0 b1 b2 b3 : Byte)

theorem le32_and_le32 :
    le32 a0 a1 a2 a3 &&& le32 b0 b1 b2 b3 = le32 (a0 &&& b0) (a1 &&& b1) (a2 &&& b2) (a3 &&& b3) := by
  refine BitVec.eq_of_getLsbD_eq fun n _ => ?_
  simp only [BitVec.getLsbD_and, getLsbD_le32]
  split_ifs <;> rfl

theorem le32_or_le32 :
    le32 a0 a1 a2 a3 ||| le32 b0 b1 b2 b3 = le32 (a0 ||| b0) (a1 ||| b1) (a2 ||| b2) (a3 ||| b3) := by
  refine BitVec.eq_of_getLsbD_eq fun n _ => ?_
  simp only [BitVec.getLsbD_or, getLsbD_le32]
  split_ifs <;> rfl

/-- A rotation by one byte: bit n comes from the byte below its own, from the top byte where there is none. -/
theorem rotl_8_le32 : rotl (le32 b0 b1 b2 b3) 8 = le32 b3 b0 b1 b2 := by
  refine BitVec.eq_of_getLsbD_eq fun n hn => ?_
  rw [getLsbD_rotl _ (by decide) hn, getLsbD_le32, getLsbD_le32, getLsbD_le32]
  grind

/-- A rotation by three bytes: bit n comes from the byte above its own, from the low byte where there is none. -/
theorem rotl_24_le32 : rotl (le32 b0 b1 b2 b3) 24 = le32 b1 b2 b3 b0 := by
  refine BitVec.eq_of_getLsbD_eq fun n hn => ?_
  rw [getLsbD_rotl _ (by decide) hn, getLsbD_le32, getLsbD_le32, getLsbD_le32]
  grind

/-- Each mask keeps two bytes of its rotation at their reversed places, and the disjunction joins the four. -/
theorem swap32_le32 : swap32 (le32 b0 b1 b2 b3) = le32 b3 b2 b1 b0 := by
  have hfirst : (0x00FF00FF : Word) = le32 (.allOnes 8) 0#8 (.allOnes 8) 0#8 := by decide
  have hsecond : (0xFF00FF00 : Word) = le32 0#8 (.allOnes 8) 0#8 (.allOnes 8) := by decide
  calc swap32 (le32 b0 b1 b2 b3)
    _ = (le32 b3 b0 b1 b2 &&& le32 (.allOnes 8) 0#8 (.allOnes 8) 0#8) |||
        (le32 b1 b2 b3 b0 &&& le32 0#8 (.allOnes 8) 0#8 (.allOnes 8)) := by
      rw [swap32, rotl_8_le32, rotl_24_le32, hfirst, hsecond]
    _ = le32 b3 0#8 b1 0#8 ||| le32 0#8 b2 0#8 b0 := by
      simp only [le32_and_le32, BitVec.and_allOnes, BitVec.and_zero]
    _ = le32 b3 b2 b1 b0 := by simp only [le32_or_le32, BitVec.or_zero, BitVec.zero_or]

end

theorem swap32_swap32 (x : Word) : swap32 (swap32 x) = x := by
  rw [← le32_byteOf x, swap32_le32, swap32_le32]

/-- Settles O8: the formula is the definition, and the reversal of the bytes is its own inverse. -/
theorem swapReversesTheFourBytes : Obligations.SwapReversesTheFourBytes :=
  ⟨fun _ => rfl, swap32_le32, swap32_swap32, by decide, by decide, by decide⟩

/-! ### Into the adapter (rule R172) -/

theorem adaptIn_hostWord (hostBe : Bool) (b0 b1 b2 b3 : Byte) :
    adaptIn hostBe (hostWord hostBe b0 b1 b2 b3) = le32 b0 b1 b2 b3 := by
  cases hostBe with
  | false => rfl
  | true => exact swap32_swap32 _

/-- With a host word in DATA, INGEST_WORD takes the first of its bytes in host address order. -/
theorem State.ingestOperand_of_hostWord {s : State} {b0 b1 b2 b3 : Byte} (h : s.data = hostWord s.hostBe b0 b1 b2 b3)
    (km1 : BitVec 2) : s.ingestOperand km1 = [b0, b1, b2, b3].take (km1.toNat + 1) := by
  rw [State.ingestOperand, h, adaptIn_hostWord, bytesLE32_le32, byteCount]

theorem exec_ingestWord_of_hostWord {s : State} {b0 b1 b2 b3 : Byte} (hf : s.finalized = false)
    (h : s.data = hostWord s.hostBe b0 b1 b2 b3) (km1 : BitVec 2) :
    exec (.ingestWord km1) s = .next (s.ingestBytes ([b0, b1, b2, b3].take (km1.toNat + 1))) := by
  rw [← State.ingestOperand_of_hostWord h km1]
  exact exec_of_ingestion (.inr ⟨km1, rfl⟩) hf

/-- Settles O40: after the write to DATA both runs ingest the first k bytes of the host's word. -/
theorem dataReachesBufInHostOrder : Obligations.DataReachesBufInHostOrder := by
  intro s km1 b0 b1 b2 b3 hf
  have hingest := exec_ingestWord_of_hostWord (s := s.acknowledge.setData (hostWord s.hostBe b0 b1 b2 b3)) hf
    (State.setData_data ..) km1
  exact ⟨adaptIn_hostWord s.hostBe b0 b1 b2 b3, _, _, rfl, hingest, runInstrs_ingestByte _ hf⟩

/-! ### Out of the adapter (rule R173) -/

theorem storedBytes_adaptOut (hostBe : Bool) (w : Word) : storedBytes hostBe (adaptOut hostBe w) = bytesLE32 w := by
  cases hostBe with
  | false => rfl
  | true => exact congrArg bytesLE32 (swap32_swap32 w)

/-- The four digest words stored natively are the digest bytes (rule R25). -/
theorem State.storedBytes_digestRead {s : State} (h : s.finalized = true) :
    storedBytes s.hostBe (s.digestRead 0) ++ storedBytes s.hostBe (s.digestRead 1) ++
      storedBytes s.hostBe (s.digestRead 2) ++ storedBytes s.hostBe (s.digestRead 3) = digestBytes s.digestH := by
  simp only [State.digestRead_of_finalized h, storedBytes_adaptOut]
  rfl

/-- Settles O41: RD_DIGEST answers the word that the adapter puts out. -/
theorem digestWordsStoreAsDigestBytes : Obligations.DigestWordsStoreAsDigestBytes :=
  fun s hf => ⟨s.digestRead, exec_rdDigest s, State.storedBytes_digestRead hf⟩

end Sys2Proof.Machine
end

section
/-! The registers that hold no flag (spec/42_endianness_and_readout.md rules R176, R177, R180 to R182): CMD, DATA, COUNT, and the
offsets that are reserved or read-only. -/

namespace Sys2Proof.Machine

theorem exec_completes (i : Instr) (s : State) : ∃ t, exec i s = .next t := by
  obtain ⟨t, ht⟩ := ignoresPending i s
  exact ⟨_, ht s.pending⟩

/-- Settles O34: the command runs once the port has completed the write. -/
theorem writeToCmdPerformsItsCommand : Obligations.WriteToCmdPerformsItsCommand := by
  intro s w
  obtain ⟨t, ht⟩ := exec_completes (decodeCmd w) s.acknowledge
  exact ⟨⟨t, none, (exec_wrCmd w s).trans ht, ht⟩, rfl⟩

theorem State.countHi_append_countLo (s : State) : s.countHi ++ s.countLo = s.count :=
  BitVec.extractLsb'_append_extractLsb' (w := 32) (len := 32)

/-- Settles O35: each register's own line, and COUNT joined from its halves. -/
theorem registersReadTheirState : Obligations.RegistersReadTheirState := fun s =>
  ⟨fun _ => rfl, fun _ => ⟨none, rfl⟩, rfl, s.countLo, s.countHi, rfl, rfl, s.countHi_append_countLo.symm⟩

/-- Settles O38: WR_IGNORED only completes the port's write. -/
theorem ignoredWritesChangeNothing : Obligations.IgnoredWritesChangeNothing := fun _ _ _ => ⟨none, rfl⟩

end Sys2Proof.Machine
end

section
/-! Hosts of either order (spec/42_endianness_and_readout.md rule R174): a host's lines that write their words in its own order
end alike on either, since all that differs is HOST_BE and the words on the host's side of the adapter. -/

namespace Sys2Proof.Machine

/-! ### A state under either host -/

/-- The state s under a host of order `hostBe`, with what stands on that host's side of the adapter: DATA, the port's last
answer, and what is still to come. -/
def State.underHost (s : State) (hostBe : Bool) (data : Word) (response : Option Word) (pending : List Stimulus) : State :=
  { s with hostBe := hostBe, data := data, response := response, pending := pending }

section
variable (s : State) (be : Bool) (v : Word) (r : Option Word) (q : List Stimulus)

theorem State.sameButHostOrder_underHost (be' : Bool) (v' : Word) (r' : Option Word) (q' : List Stimulus) :
    (s.underHost be v r q).SameButHostOrder (s.underHost be' v' r' q') := rfl

/-- The digest bytes that either host stores (rule R173). -/
theorem State.storedBytes_digestRead_underHost (h : s.finalized = true) :
    storedBytes be ((s.underHost be v r q).digestRead 0) ++ storedBytes be ((s.underHost be v r q).digestRead 1) ++
      storedBytes be ((s.underHost be v r q).digestRead 2) ++ storedBytes be ((s.underHost be v r q).digestRead 3)
        = digestBytes s.digestH :=
  State.storedBytes_digestRead (s := s.underHost be v r q) h

theorem State.underHost_putByte (x : Byte) : (s.underHost be v r q).putByte x = (s.putByte x).underHost be v r q := rfl

theorem State.underHost_raiseUsageError (e : UsageError) :
    (s.underHost be v r q).raiseUsageError e = (s.raiseUsageError e).underHost be v r q := rfl

theorem State.underHost_releaseEngine_setH (h : Hash) :
    (s.underHost be v r q).releaseEngine.setH h = (s.releaseEngine.setH h).underHost be v r q := by
  simp only [State.underHost, State.releaseEngine, State.setH]

theorem State.underHost_releaseInternals_setDigest (h : Hash) :
    (s.underHost be v r q).releaseInternals.setDigest h = (s.releaseInternals.setDigest h).underHost be v r q := by
  simp only [State.underHost, State.releaseInternals, State.setDigest]

theorem State.sameAccumulator_underHost : (s.underHost be v r q).SameAccumulator s := ⟨rfl, rfl, rfl⟩

theorem State.underHost_ingestByte (x : Byte) :
    (s.underHost be v r q).ingestByte x = (s.ingestByte x).underHost be v r q := by
  by_cases h : s.fill = 63
  · have hbuf : ((s.putByte x).underHost be v r q).bufBlock = (s.putByte x).bufBlock := rfl
    rw [State.ingestByte_of_full s x h, State.ingestByte_of_full (s.underHost be v r q) x h, State.underHost_putByte,
      hbuf, (s.sameAccumulator_underHost be v r q).h_eq, State.underHost_releaseEngine_setH]
  · rw [State.ingestByte_of_room s x h, State.ingestByte_of_room (s.underHost be v r q) x h, State.underHost_putByte]

theorem State.underHost_ingestBytes (bs : List Byte) :
    (s.underHost be v r q).ingestBytes bs = (s.ingestBytes bs).underHost be v r q := by
  induction bs generalizing s with
  | nil => rfl
  | cons b bs ih => rw [State.ingestBytes_cons, State.underHost_ingestByte, ih, State.ingestBytes_cons]

/-- Taken or rejected, an ingestion of given bytes does the same under either host. -/
theorem State.underHost_ingestOrReject (bs : List Byte) :
    (s.underHost be v r q).ingestOrReject bs = (s.ingestOrReject bs).underHost be v r q := by
  cases h : s.finalized with
  | true =>
    rw [State.ingestOrReject_of_finalized bs h, State.ingestOrReject_of_finalized (s := s.underHost be v r q) bs h,
      State.underHost_raiseUsageError]
  | false =>
    rw [State.ingestOrReject_of_not_finalized bs h,
      State.ingestOrReject_of_not_finalized (s := s.underHost be v r q) bs h, State.underHost_ingestBytes]

end

/-! ### The lines of either host -/

theorem runInstrs_append {is js : List Instr} {s t : State} (h : runInstrs is s = .next t) :
    runInstrs (is ++ js) s = runInstrs js t := by
  induction is generalizing s with
  | nil => cases h; rfl
  | cons i is ih =>
    obtain ⟨u, hu⟩ := exec_completes i s
    rw [runInstrs_cons_of_exec hu] at h
    rw [List.cons_append, runInstrs_cons_of_exec hu, ih h]

theorem decode_access_wr_data (v : Word) : decode (AsmLine.wr .data v).access.code = .wrData v := by
  simp [AsmLine.access, hostAccess, Reg.offset, Access.code, Access.wordOffset, decode, decodeBus_write]

theorem decode_access_ingestW (km1 : BitVec 2) :
    decode (AsmLine.ingestW km1).access.code = .wrCmd (0x30000000 ||| km1.setWidth 32) := by
  simp [AsmLine.access, hostAccess, Reg.offset, Access.code, Access.wordOffset, decode, decodeBus_write]

/-- A word of the host written to DATA and ingested, in full or in part (`PUSH.W` and `PUSH.T`, rule R91). -/
def pushLines (b0 b1 b2 b3 : Byte) (km1 : BitVec 2) (be : Bool) : List AsmLine :=
  [.wr .data (hostWord be b0 b1 b2 b3), .ingestW km1]

/-- Lines that each host writes in its own order lead from a state to the same state under either host. -/
def EndsAlike (lines : Bool → List AsmLine) (s t : State) : Prop :=
  ∀ (be : Bool) (v : Word) (r : Option Word) (q : List Stimulus), ∃ (v' : Word) (r' : Option Word),
    runInstrs (instrsOf (lines be)) (s.underHost be v r q) = .next (t.underHost be v' r' q)

section
variable {s t u : State} {lines lines' : Bool → List AsmLine}

theorem EndsAlike.append (h : EndsAlike lines s t) (h' : EndsAlike lines' t u) :
    EndsAlike (fun be => lines be ++ lines' be) s u := by
  intro be v r q
  obtain ⟨v', r', hrun⟩ := h be v r q
  obtain ⟨v'', r'', hrun'⟩ := h' be v' r' q
  refine ⟨v'', r'', ?_⟩
  rw [instrsOf, List.map_append]
  exact (runInstrs_append hrun).trans hrun'

end

/-- The adapter undoes the host's order, so the bytes ingested are the host's bytes in address order. -/
theorem endsAlike_pushLines (b0 b1 b2 b3 : Byte) (km1 : BitVec 2) (s : State) :
    EndsAlike (pushLines b0 b1 b2 b3 km1) s (s.ingestOrReject ([b0, b1, b2, b3].take (km1.toNat + 1))) := by
  intro be v r q
  refine ⟨hostWord be b0 b1 b2 b3, none, ?_⟩
  have hwrite : exec (.wrData (hostWord be b0 b1 b2 b3)) (s.underHost be v r q)
      = .next (s.underHost be (hostWord be b0 b1 b2 b3) none q) := rfl
  have hingest : exec (.wrCmd (0x30000000 ||| km1.setWidth 32)) (s.underHost be (hostWord be b0 b1 b2 b3) none q)
      = .next ((s.ingestOrReject ([b0, b1, b2, b3].take (km1.toNat + 1))).underHost be
          (hostWord be b0 b1 b2 b3) none q) := by
    rw [exec_wrCmd, decodeCmd_ingestWord, ← State.underHost_ingestOrReject,
      ← State.ingestOperand_of_hostWord (s := s.underHost be (hostWord be b0 b1 b2 b3) none q) rfl]
    rfl
  simp only [pushLines, instrsOf, List.map_cons, List.map_nil, decode_access_wr_data, decode_access_ingestW]
  rw [runInstrs_cons_of_exec hwrite, runInstrs_cons_of_exec hingest]
  rfl

/-- FINALIZE reads the accumulator alone, which is the same under either host. -/
theorem endsAlike_finalize (s : State) :
    EndsAlike (fun _ => [.finalize]) s (s.releaseInternals.setDigest s.finalHash) := by
  intro be v r q
  refine ⟨v, none, ?_⟩
  have hsame : (s.underHost be v none q).finalHash = s.finalHash :=
    (s.sameAccumulator_underHost be v none q).finalHash_eq
  have hexec : exec (.wrCmd 0x40000000) (s.underHost be v r q)
      = .next ((s.releaseInternals.setDigest s.finalHash).underHost be v none q) := by
    rw [← State.underHost_releaseInternals_setDigest, ← hsame]
    exact exec_wrCmd 0x40000000 _
  exact runInstrs_cons_of_exec hexec []

/-- Word by word, then the one to three bytes left (rule R91). -/
theorem exists_endsAlike_ingestLines : ∀ (m : List Byte) (s : State), ∃ t, EndsAlike (fun be => ingestLines be m) s t
  | [], s => ⟨s, fun _ v r _ => ⟨v, r, rfl⟩⟩
  | [b0], s => ⟨_, endsAlike_pushLines b0 0 0 0 0 s⟩
  | [b0, b1], s => ⟨_, endsAlike_pushLines b0 b1 0 0 1 s⟩
  | [b0, b1, b2], s => ⟨_, endsAlike_pushLines b0 b1 b2 0 2 s⟩
  | b0 :: b1 :: b2 :: b3 :: m, _ =>
    (exists_endsAlike_ingestLines m _).imp fun _ hrest => (endsAlike_pushLines b0 b1 b2 b3 3 _).append hrest

/-- Settles O42: both runs end in one state under either host, which INGEST and FINALIZE reach by the same bytes, and whose
digest either host stores alike. -/
theorem digestDoesNotDependOnHostOrder : Obligations.DigestDoesNotDependOnHostOrder := by
  intro m s t hst
  obtain ⟨u, hingest⟩ := exists_endsAlike_ingestLines m s
  have hrun := hingest.append (endsAlike_finalize u)
  have hfinalized : (u.releaseInternals.setDigest u.finalHash).finalized = true := State.setDigest_finalized _ _
  obtain ⟨v, r, hs⟩ := hrun s.hostBe s.data s.response s.pending
  obtain ⟨v', r', ht⟩ := hrun t.hostBe t.data t.response t.pending
  refine ⟨_, _, hs, (congrArg (runInstrs _) hst).trans ht, State.sameButHostOrder_underHost .., ?_⟩
  rw [State.storedBytes_digestRead_underHost _ _ _ _ _ hfinalized,
    State.storedBytes_digestRead_underHost _ _ _ _ _ hfinalized]

end Sys2Proof.Machine
end

section
/-! Usage errors (spec/60_exceptions.md rules R200 to R205, R220): what an instruction and a step can do to ERR_CODE and to the
history, and the two checks a command word meets. -/

namespace Sys2Proof.Machine

/-! ### One instruction (rules R201, R203) -/

section
variable {i : Instr} {s u t : State}

/-- An effect leaves ERR_CODE and the history, or is INIT's, or raises one error. -/
theorem Effect.error_cases (h : Effect i u t) : (t.errCode = u.errCode ∧ t.faults = u.faults) ∨
    (i.command = .init ∧ t.errCode = 0 ∧ t.faults = u.faults) ∨ ∃ e, t = u.raiseUsageError e := by
  cases h with
  | init hi => exact .inr (.inl ⟨hi, rfl, rfl⟩)
  | ingest _ =>
    rcases u.ingestOrReject_cases (u.fedBy i) with hreject | htake
    · exact .inr (.inr ⟨_, hreject⟩)
    · rw [htake]
      exact .inl ⟨State.ingestBytes_errCode .., State.ingestBytes_faults ..⟩
  | illegal w _ => exact .inr (.inr ⟨_, rfl⟩)
  | _ => exact .inl ⟨rfl, rfl⟩

/-- An instruction that adds to the history raises one error, a WR_CMD after the port has completed the write. -/
theorem exec_raises (h : exec i s = .next t) (hraise : t.faults ≠ s.faults) :
    ∃ u e, (u = s ∨ u = s.acknowledge) ∧ t = u.raiseUsageError e := by
  obtain ⟨u, hu, heffect⟩ := exec_effect h
  have hfaults : u.faults = s.faults := by rcases hu with rfl | rfl <;> rfl
  rcases heffect.error_cases with ⟨-, hkept⟩ | ⟨-, -, hkept⟩ | ⟨e, he⟩
  · exact absurd (hkept.trans hfaults) hraise
  · exact absurd (hkept.trans hfaults) hraise
  · exact ⟨u, e, hu, he⟩

end

/-- Settles O31: `raiseUsageError` written out. -/
theorem illegalCommandOnlyRaises : Obligations.IllegalCommandOnlyRaises :=
  fun _ _ => ⟨_, rfl, rfl, _, rfl, rfl⟩

/-- Settles O33: the one error raised, on the state as it was or with the port's answer taken back. -/
theorem anErrorIsTheOnlyEffect : Obligations.AnErrorIsTheOnlyEffect := by
  intro i s t hexec hraise
  obtain ⟨u, e, rfl | rfl, rfl⟩ := exec_raises hexec hraise
  · exact ⟨⟨e, u.errCode == 0⟩, rfl⟩
  · exact ⟨⟨e, s.errCode == 0⟩, rfl⟩

/-! ### One command word (rule R205) -/

section
variable {s : State} {w : Word}

theorem exec_wrCmd_of_illegal (h : decodeCmd w = .illegal w) :
    exec (.wrCmd w) s = .next (s.acknowledge.raiseUsageError .illegalCommand) := by
  rw [exec_wrCmd, h]
  rfl

theorem exec_wrCmd_of_ingestion_of_finalized
    (h : (∃ b, decodeCmd w = .ingestByte b) ∨ ∃ km1, decodeCmd w = .ingestWord km1) (hf : s.finalized = true) :
    exec (.wrCmd w) s = .next (s.acknowledge.raiseUsageError .ingestAfterFinalize) :=
  (exec_wrCmd w s).trans (exec_of_ingestion_of_finalized h hf)

end

/-- Settles O32: the rows say what the word decodes to, and the decoded command which of the two errors it meets. -/
theorem decodeComesBeforeTheFinalizedCheck : Obligations.DecodeComesBeforeTheFinalizedCheck := by
  refine ⟨fun s w hrows => ?_, fun s w hf hrow => ?_⟩
  · have hillegal := (noRow_iff_decodeCmd w).mp hrows
    exact ⟨_, exec_wrCmd_of_illegal hillegal, rfl, _, rfl, rfl⟩
  · have hingestion : (∃ b, decodeCmd w = .ingestByte b) ∨ ∃ km1, decodeCmd w = .ingestWord km1 :=
      hrow.imp (fun hbyte => ⟨_, (byteMask_iff_decodeCmd w).mp hbyte⟩)
        (fun hword => ⟨_, (wordMask_iff_decodeCmd w).mp hword⟩)
    exact ⟨_, exec_wrCmd_of_ingestion_of_finalized hingestion hf, rfl, _, rfl, rfl⟩

/-! ### One step (rules R203, R204, R220) -/

section
variable {s t : State}

/-- INIT and a reset clear ERR_CODE (rules R142, R230). -/
theorem step_clears_errCode (h : step s = .next t) (hclear : s.Performs .init ∨ ∃ strap, s.IsReset strap) :
    t.errCode = 0 := by
  rcases hclear with hperf | ⟨strap, hreset⟩
  · obtain ⟨rest, hexec⟩ := exec_of_step_performs h hperf
    cases hexec
    exact State.startNew_errCode _
  · obtain ⟨rest, rfl⟩ := eq_of_step_isReset h hreset
    exact State.resetBy_errCode ..

/-- A step leaves ERR_CODE and the history, or clears ERR_CODE alone, or adds one event, whose code ERR_CODE takes if it
is 0. -/
theorem step_error_cases (h : step s = .next t) : (t.errCode = s.errCode ∧ t.faults = s.faults) ∨
    ((s.Performs .init ∨ ∃ strap, s.IsReset strap) ∧ t.faults = s.faults) ∨
    ∃ ev : FaultEvent, t.faults = s.faults ++ [ev] ∧
      t.errCode = if s.errCode = 0 then ev.error.code else s.errCode := by
  cases step_effect h with
  | nothing _ _ => exact .inl ⟨rfl, rfl⟩
  | access a rest _ hidle hp hr hexec =>
    obtain ⟨u, heffect, -, -, -, -, herr, -, -, hfaults⟩ := access_effect hexec
    rw [← herr, ← hfaults]
    rcases heffect.error_cases with hkept | ⟨hinit, -, hkept⟩ | ⟨e, rfl⟩
    · exact .inl hkept
    · exact .inr (.inl ⟨.inl (performs_of_access hidle hp hr (.inl rfl) hinit), hkept⟩)
    · exact .inr (.inr ⟨_, State.raiseUsageError_faults .., State.raiseUsageError_errCode ..⟩)
  | reset strap rest hidle hp => exact .inr (.inl ⟨.inr ⟨strap, hidle, rest, hp⟩, rfl⟩)
  | round _ =>
    obtain ⟨⟨herr, -, -, -, -, hfaults⟩, -⟩ := s.roundDone.afterRound_effect
    exact .inl ⟨herr, hfaults⟩

end

/-- Settles O49: the three things a step can do to ERR_CODE and the history. -/
theorem onlyInitAndResetClearTheError : Obligations.OnlyInitAndResetClearTheError := by
  intro s t hstep
  have hclears := step_clears_errCode hstep
  rcases step_error_cases hstep with ⟨herr, hfaults⟩ | ⟨hclear, hfaults⟩ | ⟨ev, hfaults, herr⟩
  · exact ⟨fun hchanged => absurd herr hchanged, hclears, [], hfaults.trans (List.append_nil _).symm⟩
  · exact ⟨fun _ => .inl ⟨hclears hclear, hclear⟩, hclears, [], hfaults.trans (List.append_nil _).symm⟩
  · refine ⟨fun hchanged => ?_, hclears, [ev], hfaults⟩
    have h0 : s.errCode = 0 := by
      by_contra hne
      exact hchanged (herr.trans (if_neg hne))
    exact .inr ⟨h0, ev, hfaults, herr.trans (if_pos h0)⟩

/-- Settles O47: the step's own case of no command in progress and no stimulus. -/
theorem stateIsKeptWhenNothingComes : Obligations.StateIsKeptWhenNothingComes :=
  fun _ => step_of_nothing

end Sys2Proof.Machine
end

section
/-! Several COREs on one platform (spec/60_exceptions.md rule R218): a step of the platform replaces the state of the CORE it
names, and a routed access passes by every CORE whose window does not hold its address. -/

namespace Sys2Proof.Machine

/-! ### Stepping one CORE -/

section
variable {k : Nat} {p q : Platform}

/-- A step of the platform names no CORE and does nothing, or steps the CORE it names. -/
theorem Platform.stepAt_cases (h : Platform.stepAt k p = .next q) :
    q = p ∨ ∃ i s, p[k]? = some i ∧ step i.core = .next s ∧ q = p.set k { i with core := s } := by
  induction p generalizing k q with
  | nil => cases k <;> cases h <;> exact .inl rfl
  | cons i p ih =>
    cases k with
    | zero =>
      rw [Platform.stepAt] at h
      split at h <;> cases h
      next s hstep => exact .inr ⟨i, s, rfl, hstep, rfl⟩
    | succ k =>
      rw [Platform.stepAt] at h
      split at h <;> cases h
      next q hstep =>
        rcases ih hstep with rfl | ⟨i', s, hi', hs, rfl⟩
        · exact .inl rfl
        · exact .inr ⟨i', s, hi', hs, rfl⟩

/-- Replacing the state of a CORE moves no window. -/
theorem Platform.map_base_set {i : CoreInstance} (h : p[k]? = some i) (s : State) :
    (p.set k { i with core := s }).map CoreInstance.base = p.map CoreInstance.base := by
  obtain ⟨hk, rfl⟩ := List.getElem?_eq_some_iff.mp h
  rw [List.map_set, ← List.getElem_map CoreInstance.base (h := by simpa using hk), List.set_getElem_self]

end

/-! ### Routing an access -/

section
variable {agent : Agent} {width : Width} {addr : BitVec 32} {dir : Direction} {i : CoreInstance}

theorem Platform.route_cons_of_some {offset : BitVec 8} (h : windowOffset i.base addr = some offset) (p : Platform) :
    Platform.route agent width addr dir (i :: p) = i.enqueue ⟨agent, width, offset, dir⟩ :: p := by
  rw [Platform.route, h]

theorem Platform.route_cons_of_none (h : windowOffset i.base addr = none) (p : Platform) :
    Platform.route agent width addr dir (i :: p) = i :: Platform.route agent width addr dir p := by
  rw [Platform.route, h]

/-- A CORE whose window does not hold the address stays in its place as it was. -/
theorem Platform.getElem?_route_of_outside {p : Platform} {j : Nat} (hj : p[j]? = some i)
    (hi : windowOffset i.base addr = none) : (Platform.route agent width addr dir p)[j]? = some i := by
  induction p generalizing j with
  | nil => exact hj
  | cons i' p ih =>
    cases hi' : windowOffset i'.base addr with
    | some offset =>
      rw [Platform.route_cons_of_some hi']
      cases j with
      | zero =>
        cases hj
        rw [hi] at hi'
        cases hi'
      | succ j => exact hj
    | none =>
      rw [Platform.route_cons_of_none hi']
      cases j with
      | zero => exact hj
      | succ j => exact ih hj

end

/-- Settles O60: a step sets at most the one CORE it names, and a routed access passes the others by. -/
theorem instancesShareNoState : Obligations.InstancesShareNoState := by
  refine ⟨fun p q k hstep => ?_, fun p agent width addr dir j i => Platform.getElem?_route_of_outside⟩
  rcases Platform.stepAt_cases hstep with rfl | ⟨i, s, hi, -, rfl⟩
  · exact ⟨rfl, fun _ _ => rfl, rfl⟩
  · exact ⟨List.length_set, fun j hj => List.getElem?_set_ne hj.symm, Platform.map_base_set hi s⟩

end Sys2Proof.Machine
end

section
/-! Reset and completion (spec/70_reset_and_hazards.md rules R230, R231, R245): what a reset sets and how its state reads beside
that of INIT, and that no instruction and no command in progress gets stuck. -/

namespace Sys2Proof.Machine

/-! ### Two states that read alike -/

section
variable {s t : State}

/-- STATUS shows FINALIZED, ERR_CODE, HOST_BE and COUNT, and nothing else (rule R34). -/
theorem State.status_congr (hfinalized : s.finalized = t.finalized) (herr : s.errCode = t.errCode)
    (hbe : s.hostBe = t.hostBe) (hcount : s.count = t.count) : s.status = t.status := by
  rw [State.status, State.errFlag, State.fill, hfinalized, herr, hbe, hcount, State.status, State.errFlag, State.fill]

theorem State.countLo_congr (hcount : s.count = t.count) : s.countLo = t.countLo := by
  rw [State.countLo, hcount, State.countLo]

theorem State.countHi_congr (hcount : s.count = t.count) : s.countHi = t.countHi := by
  rw [State.countHi, hcount, State.countHi]

/-- Two states that show the same STATUS, DATA, COUNT and digest words answer every read alike. -/
theorem exec_of_isRead_congr {i : Instr} (h : i.isRead = true) (hstatus : s.status = t.status) (hdata : s.data = t.data)
    (hcount : s.count = t.count) (hdigest : ∀ k, s.digestRead k = t.digestRead k) :
    ∃ v, exec i s = .next (s.respond v) ∧ exec i t = .next (t.respond v) := by
  cases i with
  | rdCmd | rdReserved _ => exact ⟨0, rfl, rfl⟩
  | rdData => exact ⟨s.data, rfl, hdata ▸ rfl⟩
  | rdStatus => exact ⟨s.status, rfl, hstatus ▸ rfl⟩
  | rdDigest k => exact ⟨s.digestRead k, rfl, hdigest k ▸ rfl⟩
  | rdCountLo => exact ⟨s.countLo, rfl, State.countLo_congr hcount ▸ rfl⟩
  | rdCountHi => exact ⟨s.countHi, rfl, State.countHi_congr hcount ▸ rfl⟩
  | _ => cases h

end

/-! ### Reset (rules R230, R231) -/

/-- With FINALIZED = 0 after both, a reset and INIT hide the digest alike, whatever DIGEST_H holds. -/
theorem State.digestRead_resetBy (s : State) (strap : Bool) (k : BitVec 2) :
    (s.resetBy strap).digestRead k = s.startNew.digestRead k := by
  rw [State.digestRead_of_not_finalized (s.resetBy_finalized strap), State.digestRead_of_not_finalized s.startNew_finalized]

theorem State.status_resetBy (s : State) : (s.resetBy s.hostBe).status = s.startNew.status :=
  State.status_congr rfl rfl rfl rfl

/-- Settles O21: INIT is `State.startNew`, which differs from the reset in no register once DATA and HOST_BE agree. -/
theorem resetReadsLikeInit : Obligations.ResetReadsLikeInit := by
  refine fun s strap => ⟨s.startNew, rfl, rfl, rfl, rfl, rfl, rfl, rfl, rfl, rfl, rfl, ?_⟩
  rintro hdata rfl i hread
  exact exec_of_isRead_congr hread s.status_resetBy hdata.symm rfl (s.digestRead_resetBy s.hostBe)

/-- Settles O20: the step is `State.resetBy` in the state without the stimulus. -/
theorem resetStepSamplesTheStrap : Obligations.ResetStepSamplesTheStrap := fun s strap rest hidle hp =>
  ⟨(s.setPending rest).resetBy strap, step_of_reset hidle hp, rfl, rfl, rfl, rfl, rfl, rfl, rfl, rfl, rfl, rfl⟩

/-! ### Completion (rule R245) -/

/-- Settles O48: there is no fault to stop with, and with a command in progress the step is a round. -/
theorem everyInstructionCompletes : Obligations.EveryInstructionCompletes := by
  refine ⟨exec_completes, fun _ r => ?_, fun s hbusy => ⟨s.roundDone.afterRound, step_of_busy hbusy⟩⟩
  cases r

end Sys2Proof.Machine
end
